-- ==== Sys2Proof/Word.lean ====
section
/-! DEFINITION. The word types of the block: every width the spec gives a field, and nothing else. -/

namespace Sys2Proof

/-- One byte: an unsigned 8-bit value (R12); the unit of all three address spaces (R61). -/
abbrev Byte := BitVec 8

/-- A 32-bit command word (R90, R91). -/
abbrev Word := BitVec 32

/-- A 16-bit memory address, `ADDR_W = 16` (R7). -/
abbrev Addr := BitVec 16

/-- A port number, 16 bits wide on the CPU port (R60, R92). -/
abbrev PortNum := BitVec 16

/-- A window index, `a16[15:11]`, 5 bits (R31, R63). -/
abbrev WinIx := BitVec 5

/-- A device index as a map entry or a command field holds it, 5 bits (R31, R93, R94). -/
abbrev DevIx := BitVec 5

/-- A local offset, `a16[10:0]`, 11 bits (R18, R63). -/
abbrev Offset := BitVec 11

end Sys2Proof
end

