-- ==== Sys2Proof/Config.lean ====
section
/-! DEFINITION. The implementation parameters (R7 to R10), the configuration straps that carry them (R104) and the
one free value of the block, the initial contents of the buffers (R39). -/

namespace Sys2Proof

/-- The capability tag of a device: exactly three variants (R38, R143). -/
inductive Tag where
  /-- read-write RAM -/
  | rw
  /-- read-only ROM -/
  | ro
  /-- the unmapped stub: no buffer, answers the sentinel -/
  | unmapped
deriving DecidableEq, Repr

/-- `WIN_COUNT = 32` windows (R7). -/
abbrev winCount : Nat := 32

/-- `WIN_SIZE = 2048` bytes (R7): the size of a window and of every buffer (R38). -/
abbrev winSize : Nat := 2048

/-- The configuration constants of one instance, as sampled from the straps at reset (R9, R104). `TAG[0]` is no
parameter (R9), so `tags` lists the tags of devices 1, 2, ... and `NDEV` is one more than its length. -/
structure Config where
  /-- `TAG[1]`, `TAG[2]`, ... (R9) -/
  tags : List Tag
  /-- `SENTINEL`: the byte a read of an unmapped device returns (R9, R140) -/
  sentinel : Byte
  /-- `DISP_N`: the width of the output window (R7, R9) -/
  dispN : Nat
  /-- `PLACEHOLDER`: the byte that stands for an empty line (R9, R173) -/
  placeholder : Byte
  /-- `LINE_MAX`: the greatest length of a line; `none` is the legal value "unbounded" (R9) -/
  lineMax : Option Nat
deriving DecidableEq, Repr

/-- The reference values of R9 and the tags of the reference configuration (R10). -/
def Config.reference : Config :=
  { tags := [.rw, .ro], sentinel := 0xFF#8, dispN := 20, placeholder := 0x20#8, lineMax := some 255 }

/-- The static inputs of the block (R104). `tag` has one 2-bit strap for each device 1 to 31 a table can hold; only
those below `NDEV` are looked at. -/
structure Straps where
  /-- `cfg_ndev[5:0]` -/
  ndev : BitVec 6
  /-- `cfg_tag[d][1:0]`, entry `d - 1` for device `d` -/
  tag : Vector (BitVec 2) 31
  /-- `cfg_sentinel[7:0]` -/
  sentinel : Byte
  /-- `cfg_placeholder[7:0]` -/
  placeholder : Byte
  /-- `cfg_disp_n` -/
  dispN : Nat
  /-- `cfg_line_max`; `none` is "no bound" -/
  lineMax : Option Nat
deriving DecidableEq, Repr

/-- `INIT_IMAGE[d][o]` (R39): what byte `o` of device `d` holds before anything loads or writes it, after the reset
whose number is the first argument. FREE VALUE: the constant has no body, so nothing can be proved about any byte of
it, and a claim that mentions it holds for every image (log entry 1). Arguments: reset number, device, offset. -/
opaque Config.initImage : Nat → Nat → Nat → Byte

end Sys2Proof
end

