-- ==== Sys2Proof/Syntax.lean ====
section
/-! DEFINITION. The operations of the block (R5), one constructor per row of spec/opcode_table.json, and the
transaction that carries one of them to a port (R18, R90). -/

namespace Sys2Proof

/-- The three ports, one per outside agent (R90). -/
inductive Port where
  /-- the CPU port: `MRD`, `MWR`, `IORD`, `IOWR` -/
  | cpu
  /-- the setup port: `INSTALL`, `LOAD`, `START` -/
  | setup
  /-- the operator port: `LINE`, `DISP` -/
  | operator
deriving DecidableEq, Repr

/-- The nine operations with their operands (R5, R97, R100). Every field is an unsigned value of the width its format
gives it; an address is the 16-bit field `A` (R92, C11), the reduction of a wider integer being the assembler's. -/
inductive Instr where
  /-- `MRD addr` (R120) -/
  | mrd (addr : Addr)
  /-- `MWR addr, value` (R121) -/
  | mwr (addr : Addr) (value : Byte)
  /-- `IORD port` (R170) -/
  | iord (port : PortNum)
  /-- `IOWR port, value` (R171) -/
  | iowr (port : PortNum) (value : Byte)
  /-- `INSTALL w, d` (R144) -/
  | install (w : WinIx) (d : DevIx)
  /-- `LOAD d, origin, bytes` (R145) -/
  | load (d : DevIx) (origin : Offset) (bytes : List Byte)
  /-- `START` (R146) -/
  | start
  /-- `LINE bytes` (R173) -/
  | line (bytes : List Byte)
  /-- `DISP` (R175) -/
  | disp
deriving DecidableEq, Repr

/-- What one agent presents on one port: a command word and, on the port's own byte-wide payload input, the payload
in order of arrival (R90, R102). A transaction is one atomic event (R76), so its payload is part of it. -/
structure Transaction where
  port : Port
  word : Word
  payload : List Byte
deriving DecidableEq, Repr

end Sys2Proof
end

