-- ==== Sys2Proof/WellFormed.lean ====
section
/-! DEFINITION. Which terms of the syntax are operations the formats can spell (R92 to R96), and which configurations
are well formed (R104). -/

namespace Sys2Proof

/-- An operation is well formed when its payload length fits the `LEN` field of its format: 12 bits for `LOAD` (R94),
16 bits for `LINE` (R95). Every other operand is of its field's width already. Whether a length is IN RANGE
(`origin + n <= 2048`, `n <= LINE_MAX`) is the operation's own check, not this one (R101). -/
def Instr.wellFormed : Instr → Bool
  | .mrd _ => true
  | .mwr _ _ => true
  | .iord _ => true
  | .iowr _ _ => true
  | .install _ _ => true
  | .load _ _ bytes => decide (bytes.length ≤ 4095)
  | .start => true
  | .line bytes => decide (bytes.length ≤ 65535)
  | .disp => true

/-- A configuration is well formed when `1 <= NDEV <= 32`, `DISP_N >= 1` and `LINE_MAX >= 1` (R104). `NDEV` is
`tags.length + 1`, so its lower bound needs no check; a reserved tag is refused where the straps are sampled. -/
def Config.wellFormed (c : Config) : Bool :=
  decide (c.tags.length + 1 ≤ 32) && decide (1 ≤ c.dispN) &&
    match c.lineMax with
    | none => true
    | some n => decide (1 ≤ n)

end Sys2Proof
end

