-- ==== Sys2Proof/Decode.lean ====
section
/-! DEFINITION. The decoder of a transaction (R91 to R103), total and rejecting by name, and after it the encoder. -/

namespace Sys2Proof

/-- Why a transaction spells no operation. The spec has one reason for all of them, `BadEncoding` (R101, R203); the
name says which clause of R101 holds. -/
inductive Reject where
  /-- R101 (a): `OP` is 0x7 or 0xA to 0xF -/
  | reservedOpcode
  /-- R101 (c): a port other than the one `OP[3:2]` names -/
  | wrongPort
  /-- R101 (b): a bit the format calls zero is 1 -/
  | nonzeroBits
  /-- R102: the payload is not exactly `LEN` bytes (log entry 6) -/
  | payloadLength
deriving DecidableEq, Repr

/-- What a transaction decodes to: one of the nine operations, or a rejection (R103). -/
inductive Decoded where
  | op (i : Instr)
  | bad (r : Reject)
deriving DecidableEq, Repr

/-- `OP`, bits `[31:28]` (R91). -/
def opField (w : Word) : BitVec 4 := w.extractLsb' 28 4

/-- The port `OP[3:2]` names; `0b11` names none (R98). -/
def portField (w : Word) : Option Port :=
  let p := w.extractLsb' 30 2
  if p = 0b00#2 then some .cpu
  else if p = 0b01#2 then some .setup
  else if p = 0b10#2 then some .operator
  else none

/-- `OP` is 0x7 or 0xA to 0xF (R101 (a)). -/
def reservedOp (w : Word) : Bool := opField w = 0x7#4 || decide (0xA#4 ≤ opField w)

/-- The bits the word's format calls zero are all 0 (R92 to R96, R101 (b)); a reserved opcode has no format. -/
def zeroBitsClear (w : Word) : Bool :=
  if opField w = 0x0#4 then w.extractLsb' 24 4 = 0#4 && w.extractLsb' 0 8 = 0#8
  else if opField w = 0x1#4 then w.extractLsb' 24 4 = 0#4
  else if opField w = 0x2#4 then w.extractLsb' 24 4 = 0#4 && w.extractLsb' 0 8 = 0#8
  else if opField w = 0x3#4 then w.extractLsb' 24 4 = 0#4
  else if opField w = 0x4#4 then w.extractLsb' 13 15 = 0#15 && w.extractLsb' 5 3 = 0#3
  else if opField w = 0x5#4 then true
  else if opField w = 0x6#4 then w.extractLsb' 0 28 = 0#28
  else if opField w = 0x8#4 then w.extractLsb' 16 12 = 0#12
  else if opField w = 0x9#4 then w.extractLsb' 0 28 = 0#28
  else false

/-- How many payload bytes follow the word, told from the word alone (R102). -/
def payloadLen (w : Word) : Nat :=
  if opField w = 0x5#4 then (w.extractLsb' 0 12).toNat
  else if opField w = 0x8#4 then (w.extractLsb' 0 16).toNat
  else 0

/-- `xs` has exactly `n` elements, told by walking both together. -/
def hasLength {α : Type} : List α → Nat → Bool
  | [], 0 => true
  | [], _ + 1 => false
  | _ :: _, 0 => false
  | _ :: xs, n + 1 => hasLength xs n

/-- The operation a word with a legal opcode spells, each operand taken from its field as it stands: no sign
extension, no scaling, no shift (R92 to R97, R100). -/
def operandsOf (w : Word) (payload : List Byte) : Option Instr :=
  if opField w = 0x0#4 then some (.mrd (w.extractLsb' 8 16))
  else if opField w = 0x1#4 then some (.mwr (w.extractLsb' 8 16) (w.extractLsb' 0 8))
  else if opField w = 0x2#4 then some (.iord (w.extractLsb' 8 16))
  else if opField w = 0x3#4 then some (.iowr (w.extractLsb' 8 16) (w.extractLsb' 0 8))
  else if opField w = 0x4#4 then some (.install (w.extractLsb' 8 5) (w.extractLsb' 0 5))
  else if opField w = 0x5#4 then some (.load (w.extractLsb' 23 5) (w.extractLsb' 12 11) payload)
  else if opField w = 0x6#4 then some .start
  else if opField w = 0x8#4 then some (.line payload)
  else if opField w = 0x9#4 then some .disp
  else none

/-- The decoder: total on every port, word and payload (R101, R103). -/
def decode (t : Transaction) : Decoded :=
  if reservedOp t.word then .bad .reservedOpcode
  else if portField t.word ≠ some t.port then .bad .wrongPort
  else if ¬ zeroBitsClear t.word then .bad .nonzeroBits
  else if ¬ hasLength t.payload (payloadLen t.word) then .bad .payloadLength
  else
    match operandsOf t.word t.payload with
    | some i => .op i
    | none => .bad .reservedOpcode

/-- The encoder: the transaction that spells an operation, each format written field by field from the most
significant bit down (R92 to R97), on the port that carries the operation. -/
def encode : Instr → Transaction
  | .mrd addr => ⟨.cpu, 0x0#4 ++ 0#4 ++ addr ++ 0#8, []⟩
  | .mwr addr value => ⟨.cpu, 0x1#4 ++ 0#4 ++ addr ++ value, []⟩
  | .iord port => ⟨.cpu, 0x2#4 ++ 0#4 ++ port ++ 0#8, []⟩
  | .iowr port value => ⟨.cpu, 0x3#4 ++ 0#4 ++ port ++ value, []⟩
  | .install w d => ⟨.setup, 0x4#4 ++ 0#15 ++ w ++ 0#3 ++ d, []⟩
  | .load d origin bytes => ⟨.setup, 0x5#4 ++ d ++ origin ++ BitVec.ofNat 12 bytes.length, bytes⟩
  | .start => ⟨.setup, 0x6#4 ++ 0#28, []⟩
  | .line bytes => ⟨.operator, 0x8#4 ++ 0#12 ++ BitVec.ofNat 16 bytes.length, bytes⟩
  | .disp => ⟨.operator, 0x9#4 ++ 0#28, []⟩

/-- The first `n` bytes of a number, least significant first. -/
def bytesOfNat : Nat → Nat → List Byte
  | 0, _ => []
  | n + 1, w => BitVec.ofNat 8 w :: bytesOfNat n (w / 256)

/-- The transaction whose bits are `w` in the numbering of the opcode table: the command word is bits 31..0, payload
byte `k` is bits `39 + 8k .. 32 + 8k`, all bits from `nbits` up are 0, and the port is the one the opcode names. -/
def tableTransaction (nbits w : Nat) : Transaction :=
  let bits := w % 2 ^ nbits
  let word : Word := BitVec.ofNat 32 bits
  { port := (portField word).getD .cpu
    word := word
    payload := bytesOfNat (payloadLen word) (bits / 2 ^ 32) }

/-- The operation the decoder reads from a table word; `none` where it rejects. -/
def decodeTableWord (nbits w : Nat) : Option Instr :=
  match decode (tableTransaction nbits w) with
  | .op i => some i
  | .bad _ => none

end Sys2Proof
end

