-- ==== Sys2Proof/Machine/State.lean ====
section
/-! DEFINITION. The state of the block as plain data (R30), the reasons a step can stop, and the state after reset. -/

namespace Sys2Proof.Machine

/-- `SETUP` (0) or `RUN` (1) (R34). -/
inductive Phase where
  | setup
  | run
deriving DecidableEq, Repr

/-- The block raises no exception, no trap and no fault (R200, R202, R205: "Fault: never"), so there is no reason a
step can fault: the type has no constructor. -/
inductive Fault where
deriving DecidableEq, Repr

/-- Why the model refuses: the closed list of R203, and the skeleton's `notModelled`, which no arm of `exec` answers.
A refused operation changes no state and gives no response; every refusal is safe (the model stops where a machine
might go on). -/
inductive Refusal where
  /-- raised by an arm of `exec` whose instruction has no meaning yet; safe; no arm of this model answers it -/
  | notModelled (mnemonic : String)
  /-- raised by `step`, `powerOn` and `resetAgain`: the configuration is not well formed (R104); safe -/
  | badConfig
  /-- raised by `step`: the transaction spells no operation (R101), or the operator's line has no command word
  (log entry 7); safe -/
  | badEncoding
  /-- raised by `INSTALL`, `LOAD` and `START` when `PHASE = RUN` (R144, R145, R146); safe -/
  | notInSetup
  /-- raised by `INSTALL` and `LOAD` when `d >= NDEV` (R144, R145); safe -/
  | badDevice
  /-- raised by `LOAD` when `origin + n > 2048` (R145); safe -/
  | loadRange
  /-- raised by `LINE` when `WAIT = 0` (R173); safe -/
  | lineNotRequested
  /-- raised by `LINE` when `n > LINE_MAX` (R173); safe -/
  | lineTooLong
  /-- raised by `typeLine`, the operator-port boundary: a character code of 256 or more (R174); safe -/
  | badChar
deriving DecidableEq, Repr

/-- The bytes of all device buffers, keyed by `device * 2048 + offset`, in one canonical form: keys strictly rising.
A byte that nothing has loaded or written since reset is not listed; as far as the store goes it has NO VALUE
(`Memory.byteAt?` answers `none`), and the device that reads it supplies its free `INIT_IMAGE` byte (R39). -/
abbrev Memory := List Host.Cell

/-- The state. `phase`, `wmap`, `buf`, `inq`, `outw` and `wait` are the six elements of R30; `cfg` holds the straps as
sampled at reset (R104); `boot` numbers the reset, to pick its free image; the last three are the wires of the three
ports: what has been presented and not yet taken up, and what has been answered and not yet collected. -/
structure State where
  /-- the configuration constants sampled at reset, constant until the next (R104) -/
  cfg : Config
  /-- MODEL'S OWN: the number of this reset, the first argument of `Config.initImage` (R39, R230, log entry 1) -/
  boot : Nat
  /-- `PHASE` (R34) -/
  phase : Phase
  /-- `WMAP[0..31]` (R31) -/
  wmap : Vector DevIx 32
  /-- `BUF[d][o]` of every buffered device (R38) -/
  buf : Memory
  /-- `INQ`, front first (R42) -/
  inq : List Byte
  /-- `OUTW`, oldest first (R43) -/
  outw : List Byte
  /-- `WAIT` (R41): one `IORD` is suspended -/
  wait : Bool
  /-- MODEL'S OWN: the transactions presented on the three ports and not yet completed, in order of arrival (R76) -/
  arrivals : List Transaction
  /-- MODEL'S OWN: response bytes given on `c_rsp` and not yet collected by the CPU, oldest first (R99) -/
  cRsp : List Byte
  /-- MODEL'S OWN: responses of `DISP` given on the operator port and not yet collected, oldest first (R99) -/
  oRsp : List (List Byte)
deriving DecidableEq, Repr

/-- The state right after a reset whose straps carry `cfg`; `boot` picks the free contents of the buffers
(R46, R230). -/
def State.resetWith (cfg : Config) (boot : Nat) : State where
  cfg := cfg
  boot := boot
  phase := .setup
  wmap := Vector.replicate 32 0#5
  buf := []
  inq := []
  outw := []
  wait := false
  arrivals := []
  cRsp := []
  oRsp := []

/-- The machine right after reset, strapped with the reference configuration (R9, R10; log entry 2). -/
def State.reset : State := State.resetWith Config.reference 0

end Sys2Proof.Machine
end

