-- ==== Sys2Proof/Machine/Operands.lean ====
section
/-! DEFINITION. Operand forms: the reduction and decode of an address (R62, R63, R72), the places of a buffer, the
device table and its tags (R38, R40), and the sampling of the straps (R104). -/

namespace Sys2Proof.Machine

/-- `a mod 65536` of any integer, floored, so that `-1` is `0xFFFF` (R62). -/
def reduceAddr (a : Int) : Addr := BitVec.ofNat 16 (a % 65536).toNat

/-- `w = a16 >> 11`, the field `a16[15:11]` (R63). -/
def windowOf (a : Addr) : WinIx := a.extractLsb' 11 5

/-- `o = a16 & WIN_MASK`, the field `a16[10:0]` (R8, R63). -/
def offsetOf (a : Addr) : Offset := a.extractLsb' 0 11

/-- The address whose decode is `(w, o)`: `(w << 11) | o` (R63). -/
def addrOf (w : WinIx) (o : Offset) : Addr := w ++ o

/-- The store's key of byte `o` of device `d`. -/
def cellKey (d o : Nat) : Nat := d * 2048 + o

/-- The device table: device 0 is the unmapped device in every configuration, then the configured ones (R33). -/
def deviceTable (c : Config) : List Tag := .unmapped :: c.tags

/-- `NDEV`, device 0 included (R9). -/
def ndev (c : Config) : Nat := (deviceTable c).length

/-- `TAG[d]` (R38). A number at or above `NDEV` names no device; no map entry of a reachable state holds one
(R32), and it reads as unmapped (log entry 3). -/
def tagOf (c : Config) (d : Nat) : Tag := (deviceTable c).getD d .unmapped

/-- The gate `ren` of a tag: reads reach the buffer (R40). -/
def readsPass : Tag → Bool
  | .rw => true
  | .ro => true
  | .unmapped => false

/-- The gate `wen` of a tag: writes reach the buffer (R40). -/
def writesPass : Tag → Bool
  | .rw => true
  | .ro => false
  | .unmapped => false

/-- A device has a buffer when its tag is `RW` or `RO` (R38). -/
def buffered : Tag → Bool
  | .rw => true
  | .ro => true
  | .unmapped => false

/-- The two strap bits `{wen, ren}` of a tag (R40). -/
def tagBits : Tag → BitVec 2
  | .rw => 0b11#2
  | .ro => 0b01#2
  | .unmapped => 0b00#2

/-- The tag two strap bits name; `0b10` is reserved and names none (R40). -/
def tagOfBits (b : BitVec 2) : Option Tag :=
  if b = 0b11#2 then some .rw
  else if b = 0b01#2 then some .ro
  else if b = 0b00#2 then some .unmapped
  else none

/-- The tags a list of straps names; none where one of them is reserved. -/
def tagsOfBits : List (BitVec 2) → Option (List Tag)
  | [] => some []
  | b :: bs =>
    match tagOfBits b, tagsOfBits bs with
    | some t, some ts => some (t :: ts)
    | _, _ => none

/-- Sampling the straps (R104): the configuration they carry, or none when it is not well formed. -/
def sampleStraps (p : Straps) : Option Config :=
  if p.ndev.toNat = 0 then none
  else
    match tagsOfBits (p.tag.toList.take (p.ndev.toNat - 1)) with
    | none => none
    | some tags =>
      let c : Config :=
        { tags := tags, sentinel := p.sentinel, dispN := p.dispN, placeholder := p.placeholder, lineMax := p.lineMax }
      if decide (p.ndev.toNat ≤ 32) && c.wellFormed then some c else none

/-- The bit that encodes the phase (R34). -/
def phaseBit : Phase → BitVec 1
  | .setup => 0#1
  | .run => 1#1

end Sys2Proof.Machine
end

