-- ==== Sys2Proof/Machine/Flags.lean ====
section
/-! DEFINITION. The block has no flags and no condition codes (R37). What stands in their place: the comparisons its
operations make (R80) and the status an outside agent can see (R37, R90). -/

namespace Sys2Proof.Machine

/-- `value < 32`: a control code (R7, R80 (c)). -/
def isControl (v : Byte) : Bool := decide (v.toNat < 32)

/-- `d < NDEV` (R80 (f)). -/
def deviceExists (c : Config) (d : Nat) : Bool := decide (d < ndev c)

/-- `origin + n <= 2048`, added without wrap (R80 (e)). -/
def loadFits (origin n : Nat) : Bool := decide (origin + n ≤ 2048)

/-- `n <= LINE_MAX`; always true when there is no bound (R80 (f), R9). -/
def lineFits (c : Config) (n : Nat) : Bool :=
  match c.lineMax with
  | none => true
  | some m => decide (n ≤ m)

/-- `last_n(s, n)`: the final `n` elements, all of `s` when it is no longer than `n` (R13). -/
def lastN (s : List Byte) (n : Nat) : List Byte := s.drop (s.length - n)

/-- The operations that have no step while `WAIT = 1`: all but `LINE` and `DISP` (R204). -/
def holdsInWait : Instr → Bool
  | .mrd _ => true
  | .mwr _ _ => true
  | .iord _ => true
  | .iowr _ _ => true
  | .install _ _ => true
  | .load _ _ _ => true
  | .start => true
  | .line _ => false
  | .disp => false

/-- `c_wait`, which is `WAIT` (R90). -/
def cWait (s : State) : BitVec 1 := BitVec.ofBool s.wait

/-- `o_req`, the line request, which is `WAIT` (R90). -/
def oReq (s : State) : BitVec 1 := BitVec.ofBool s.wait

/-- `o_dlen` of a `DISP` response (R99). -/
def oDlen (response : List Byte) : Nat := response.length

end Sys2Proof.Machine
end

