-- ==== Sys2Proof/Machine/Ops.lean ====
section
/-! DEFINITION. The named operations over the state: one setter per element, the byte store, the device primitives
(R140 to R142), the bus primitives (R66, R67), the console primitives, responses and the hold (R204). The block
raises no exception (R200), so there is no exception entry and no return from one. -/

namespace Sys2Proof.Machine

/-- `PHASE <- p` (R14). -/
def State.setPhase (s : State) (p : Phase) : State := { s with phase := p }

/-- `WMAP[w] <- d` (R14). -/
def State.setWmap (s : State) (w : WinIx) (d : DevIx) : State := { s with wmap := s.wmap.set w.toNat d w.isLt }

/-- The buffers replaced. -/
def State.setBuf (s : State) (m : Memory) : State := { s with buf := m }

/-- `INQ <- q` (R14). -/
def State.setInq (s : State) (q : List Byte) : State := { s with inq := q }

/-- `OUTW <- q` (R14). -/
def State.setOutw (s : State) (q : List Byte) : State := { s with outw := q }

/-- `WAIT <- b` (R14). -/
def State.setWait (s : State) (b : Bool) : State := { s with wait := b }

/-- The pending transactions replaced. -/
def State.setArrivals (s : State) (ts : List Transaction) : State := { s with arrivals := ts }

/-- A response byte appears on `c_rsp` (R99). -/
def State.respondCpu (s : State) (v : Byte) : State := { s with cRsp := s.cRsp ++ [v] }

/-- A response of `DISP` appears on the operator port (R99). -/
def State.respondOperator (s : State) (bytes : List Byte) : State := { s with oRsp := s.oRsp ++ [bytes] }

/-- `WMAP[w]` (R14). -/
def State.wmapAt (s : State) (w : WinIx) : DevIx := s.wmap[w.toNat]'w.isLt

/-- The canonical form of the store: keys strictly rising. What an unlisted key reads as is no value, so no entry can
equal it. -/
abbrev Memory.wf (m : Memory) : Prop := m.Pairwise fun a b => a.1 < b.1

/-- What key `k` of the store holds; none when nothing has loaded or written it since reset. -/
def Memory.byteAt? : Memory → Nat → Option Byte
  | [], _ => none
  | (j, v) :: m, k => if j = k then some v else Memory.byteAt? m k

/-- The store with `v` at key `k`, in its place in the order. -/
def Memory.store : Memory → Nat → Byte → Memory
  | [], k, v => [(k, v)]
  | (j, x) :: m, k, v =>
    if k < j then (k, v) :: (j, x) :: m
    else if k = j then (k, v) :: m
    else (j, x) :: Memory.store m k v

/-- The store with byte `i` of a sequence at key `k + i`, ascending (R68, R142). -/
def Memory.storeAll : Memory → Nat → List Byte → Memory
  | m, _, [] => m
  | m, k, b :: bs => Memory.storeAll (Memory.store m k b) (k + 1) bs

/-- `DevRead(d, o)` (R140): the buffer byte where the tag lets reads through, its free `INIT_IMAGE` byte when nothing
has loaded or written it (R39), `SENTINEL` otherwise. -/
def devRead (s : State) (d o : Nat) : Byte :=
  if readsPass (tagOf s.cfg d) then (s.buf.byteAt? (cellKey d o)).getD (Config.initImage s.boot d o)
  else s.cfg.sentinel

/-- `DevWrite(d, o, v)` (R141): writes the buffer byte of a `RW` device; nothing happens otherwise. -/
def devWrite (s : State) (d o : Nat) (v : Byte) : State :=
  if writesPass (tagOf s.cfg d) then s.setBuf (s.buf.store (cellKey d o) v) else s

/-- `DevLoad(d, origin, bytes)` (R142): byte `i` goes to offset `origin + i` of a buffered device, `RO` included;
nothing happens to an unmapped one. -/
def devLoad (s : State) (d origin : Nat) (bytes : List Byte) : State :=
  if buffered (tagOf s.cfg d) then s.setBuf (s.buf.storeAll (cellKey d origin) bytes) else s

/-- The device a reduced address selects: `WMAP[w]` (R64). -/
def deviceAt (s : State) (a : Addr) : Nat := (s.wmapAt (windowOf a)).toNat

/-- `MemRead(addr, 1)` (R66), for any integer address (R62). -/
def memRead (s : State) (addr : Int) : Byte :=
  let a := reduceAddr addr
  devRead s (deviceAt s a) (offsetOf a).toNat

/-- `MemWrite(addr, 1, v)` (R67), for any integer address (R62). -/
def memWrite (s : State) (addr : Int) (v : Byte) : State :=
  let a := reduceAddr addr
  devWrite s (deviceAt s a) (offsetOf a).toNat v

/-- What the console does with a written value: a control code clears the window, any other is appended and the front
dropped to keep `DISP_N` (R171). -/
def consolePut (s : State) (v : Byte) : State :=
  if isControl v then s.setOutw [] else s.setOutw (lastN (s.outw ++ [v]) s.cfg.dispN)

/-- The queue a line fills: the line, or the placeholder for an empty one (R173). -/
def refill (c : Config) (bytes : List Byte) : List Byte :=
  if bytes = [] then [c.placeholder] else bytes

/-- The suspended `IORD` takes the front of the refilled queue, which is its response (R173). -/
def completeRead (s : State) : List Byte → State
  | [] => s.setWait false
  | c :: rest => ((s.setInq rest).setWait false).respondCpu c

/-- Hold (R204): the operation has no step and stays pending, its transaction back where it was taken up. -/
def hold (i : Instr) (s : State) : Host.Outcome State Fault Refusal := .next (s.setArrivals (encode i :: s.arrivals))

end Sys2Proof.Machine
end

