-- ==== Sys2Proof/Machine/Bus.lean ====
section
/-! DEFINITION. The bus operations `MRD` and `MWR` (R120, R121). -/

namespace Sys2Proof.Machine

/-- `MRD addr` (R120): holds while `WAIT = 1`, else responds with `MemRead(addr, 1)` and changes nothing. -/
def execMrd (addr : Addr) (s : State) : Host.Outcome State Fault Refusal :=
  if s.wait then hold (.mrd addr) s else .next (s.respondCpu (memRead s addr.toNat))

/-- `MWR addr, value` (R121): holds while `WAIT = 1`, else `MemWrite(addr, 1, value)` and no response. -/
def execMwr (addr : Addr) (value : Byte) (s : State) : Host.Outcome State Fault Refusal :=
  if s.wait then hold (.mwr addr value) s else .next (memWrite s addr.toNat value)

end Sys2Proof.Machine
end

