-- ==== Sys2Proof/Machine/Console.lean ====
section
/-! DEFINITION. The console operations `IORD`, `IOWR`, `LINE` and `DISP` (R170, R171, R173, R175), and the fused view
of a read and the line that answers it (R177). The port of `IORD` and `IOWR` is not looked at (R82); it is kept only
in the transaction of a held operation. -/

namespace Sys2Proof.Machine

/-- `IORD port` (R170): responds with the front of the queue and removes it, or suspends when the queue is empty. -/
def execIord (port : PortNum) (s : State) : Host.Outcome State Fault Refusal :=
  if s.wait then hold (.iord port) s
  else
    match s.inq with
    | c :: rest => .next ((s.setInq rest).respondCpu c)
    | [] => .next (s.setWait true)

/-- `IOWR port, value` (R171). -/
def execIowr (port : PortNum) (value : Byte) (s : State) : Host.Outcome State Fault Refusal :=
  if s.wait then hold (.iowr port value) s else .next (consolePut s value)

/-- `LINE bytes` (R173): refused unless requested and short enough, in that order; else it completes the suspended
`IORD` with the first byte of the refilled queue and leaves the rest queued. -/
def execLine (bytes : List Byte) (s : State) : Host.Outcome State Fault Refusal :=
  if ¬ s.wait then .refused .lineNotRequested
  else if ¬ lineFits s.cfg bytes.length then .refused .lineTooLong
  else .next (completeRead s (refill s.cfg bytes))

/-- `DISP` (R175): responds with the output window; accepted in both phases and while `WAIT = 1`. -/
def execDisp (s : State) : Host.Outcome State Fault Refusal := .next (s.respondOperator s.outw)

/-- The fused view (R177): an `IORD` on an empty queue together with the line that answers it, as one step. -/
def fusedIord (bytes : List Byte) (s : State) : State :=
  match refill s.cfg bytes with
  | [] => s
  | c :: rest => (s.setInq rest).respondCpu c

end Sys2Proof.Machine
end

