-- ==== Sys2Proof/Machine/Setup.lean ====
section
/-! DEFINITION. The setup operations `INSTALL`, `LOAD` and `START` (R144, R145, R146), their checks in the order of
R207: hold, then `NotInSetup`, then `BadDevice`, then `LoadRange`. -/

namespace Sys2Proof.Machine

/-- `INSTALL w, d` (R144). -/
def execInstall (w : WinIx) (d : DevIx) (s : State) : Host.Outcome State Fault Refusal :=
  if s.wait then hold (.install w d) s
  else if s.phase ≠ .setup then .refused .notInSetup
  else if ¬ deviceExists s.cfg d.toNat then .refused .badDevice
  else .next (s.setWmap w d)

/-- `LOAD d, origin, bytes` (R145). -/
def execLoad (d : DevIx) (origin : Offset) (bytes : List Byte) (s : State) : Host.Outcome State Fault Refusal :=
  if s.wait then hold (.load d origin bytes) s
  else if s.phase ≠ .setup then .refused .notInSetup
  else if ¬ deviceExists s.cfg d.toNat then .refused .badDevice
  else if ¬ loadFits origin.toNat bytes.length then .refused .loadRange
  else .next (devLoad s d.toNat origin.toNat bytes)

/-- `START` (R146). -/
def execStart (s : State) : Host.Outcome State Fault Refusal :=
  if s.wait then hold .start s
  else if s.phase ≠ .setup then .refused .notInSetup
  else .next (s.setPhase .run)

end Sys2Proof.Machine
end

