-- ==== Sys2Proof/Machine/Dispatch.lean ====
section
/-! DEFINITION. The meaning of every operation: one arm per constructor of `Instr`. -/

namespace Sys2Proof.Machine

def exec (i : Instr) (s : State) : Host.Outcome State Fault Refusal :=
  match i with
  | .mrd addr => Sys2Proof.Machine.execMrd addr s
  | .mwr addr value => Sys2Proof.Machine.execMwr addr value s
  | .iord port => Sys2Proof.Machine.execIord port s
  | .iowr port value => Sys2Proof.Machine.execIowr port value s
  | .install w d => Sys2Proof.Machine.execInstall w d s
  | .load d origin bytes => Sys2Proof.Machine.execLoad d origin bytes s
  | .start => Sys2Proof.Machine.execStart s
  | .line bytes => Sys2Proof.Machine.execLine bytes s
  | .disp => Sys2Proof.Machine.execDisp s

end Sys2Proof.Machine
end

