-- ==== Sys2Proof/Machine/Fetch.lean ====
section
/-! DEFINITION. Taking up the next transaction: the block has no program counter (R36); what sequences its operations
is their order of arrival (R76), less what holds while `WAIT = 1` (R204). -/

namespace Sys2Proof.Machine

/-- What the block does next. -/
inductive Fetched where
  /-- nothing has arrived, or all that has arrived holds: the block is passive (R19) and nothing changes -/
  | idle
  /-- this operation is executed, from this state -/
  | run (i : Instr) (s : State)
  /-- the transaction is refused -/
  | refuse (r : Refusal)
deriving DecidableEq, Repr

/-- A transaction holds when `WAIT = 1` and it spells an operation other than `LINE` and `DISP` (R204). Decoding comes
first (R207): one that spells no operation does not hold. -/
def holding (wait : Bool) (t : Transaction) : Bool :=
  wait &&
    match decode t with
    | .op i => holdsInWait i
    | .bad _ => false

/-- The first transaction, in order of arrival, that does not hold and is not behind a holding one on its own port
(R90: a port carries one transaction at a time), with what stays pending. -/
def takeUp (wait : Bool) : List Port → List Transaction → Option (Transaction × List Transaction)
  | _, [] => none
  | busy, t :: ts =>
    if busy.contains t.port || holding wait t then
      match takeUp wait (t.port :: busy) ts with
      | some (u, rest) => some (u, t :: rest)
      | none => none
    else some (t, ts)

/-- The next thing the block does. A configuration that is not well formed is refused before anything else (R104). -/
def fetch (s : State) : Fetched :=
  if ¬ s.cfg.wellFormed then .refuse .badConfig
  else
    match takeUp s.wait [] s.arrivals with
    | none => .idle
    | some (t, rest) =>
      match decode t with
      | .op i => .run i (s.setArrivals rest)
      | .bad _ => .refuse .badEncoding

end Sys2Proof.Machine
end

