-- ==== Sys2Proof/Machine/Step.lean ====
section
/-! DEFINITION. One step of the block, and where a test places the next operation. -/

namespace Sys2Proof.Machine

/-- One step: the next transaction is taken up and executed to completion (R76), or refused; with nothing to take up
the block waits, and its state stays as it is (R19, R204, R205). -/
def step (s : State) : Host.Outcome State Fault Refusal :=
  match fetch s with
  | .idle => .next s
  | .run i s' => exec i s'
  | .refuse r => .refused r

/-- `s` with the transaction of a table word presented ahead of all others (log entry 4). -/
def State.withFetchWord (s : State) (nbits w : Nat) : State :=
  { s with arrivals := tableTransaction nbits w :: s.arrivals }

end Sys2Proof.Machine
end

