-- ==== Sys2Proof/Machine/Ports.lean ====
section
/-! DEFINITION. What the outside agents can do to the block between its steps: present a transaction, type a line,
collect a response, reset it (R19, R90, R174, R231). -/

namespace Sys2Proof.Machine

/-- A transaction arrives, after all that are pending (R76). -/
def State.arrive (s : State) (t : Transaction) : State := s.setArrivals (s.arrivals ++ [t])

/-- How many transactions of the CPU are pending: the suspended read, and those not yet completed on its port (R41,
R90). -/
def cpuPending (s : State) : Nat := s.wait.toNat + s.arrivals.countP fun u => decide (u.port = .cpu)

/-- The CPU never issues a second transaction while one is pending (R244). -/
def mayPresent (s : State) (t : Transaction) : Bool := decide (t.port ≠ .cpu) || decide (cpuPending s = 0)

/-- An agent presents a transaction on its port (R90); none where the agent has no such move (R244). -/
def State.present (s : State) (t : Transaction) : Option State := if mayPresent s t then some (s.arrive t) else none

/-- The operator types a line, given as the codes of its characters without the terminator (R174). A code of 256 or
more cannot be expressed on the port: `BadChar`. A line longer than its 16-bit `LEN` field can say has no command
word (log entry 7). -/
def typeLine (codes : List Nat) (s : State) : Host.Outcome State Fault Refusal :=
  if ¬ codes.all (fun c => decide (c < 256)) then .refused .badChar
  else if ¬ codes.length ≤ 65535 then .refused .badEncoding
  else .next (s.arrive (encode (.line (codes.map (BitVec.ofNat 8)))))

/-- The CPU collects the oldest response byte (R99). -/
def takeCpuResponse (s : State) : Option (Byte × State) :=
  match s.cRsp with
  | [] => none
  | v :: rest => some (v, { s with cRsp := rest })

/-- The operator collects the oldest response of `DISP` (R99). -/
def takeDisplay (s : State) : Option (List Byte × State) :=
  match s.oRsp with
  | [] => none
  | d :: rest => some (d, { s with oRsp := rest })

/-- The start of the model: the straps are sampled, and a configuration that is not well formed is refused with
`BadConfig` (R104, R203). -/
def powerOn (p : Straps) (boot : Nat) : Host.Outcome State Fault Refusal :=
  match sampleStraps p with
  | some c => .next (State.resetWith c boot)
  | none => .refused .badConfig

/-- The reset input, which has no encoding on any port (R231): the straps are sampled anew, a pending `IORD` is
dropped with no response, nothing of the block survives, and the buffers hold a fresh image (R230). -/
def resetAgain (p : Straps) (s : State) : Host.Outcome State Fault Refusal := powerOn p (s.boot + 1)

end Sys2Proof.Machine
end

