-- ==== Sys2Proof/Machine/Script.lean ====
section
/-! DEFINITION. The script syntax as far as it means something beyond the operations it names (R105, R106): addresses
as any integer, text as codes, the pseudo-operations; and running operations one after another. -/

namespace Sys2Proof.Machine

/-- `MRD <addr>` with any integer; the assembler keeps `a mod 65536` (R100). -/
def asmMrd (addr : Int) : Instr := .mrd (reduceAddr addr)

/-- `MWR <addr>, <byte>` with any integer (R100). -/
def asmMwr (addr : Int) (value : Byte) : Instr := .mwr (reduceAddr addr) value

/-- The codes of the characters of a quoted string (R105). -/
def textCodes (t : String) : List Nat := t.toList.map Char.toNat

/-- `LINE "text"`; none when a character's code is 256 or more (R105, R174). -/
def asmLine (codes : List Nat) : Option Instr :=
  if codes.all (fun c => decide (c < 256)) then some (.line (codes.map (BitVec.ofNat 8))) else none

/-- `FILL <dev>, <byte>` (R106). -/
def pseudoFill (d : DevIx) (b : Byte) : Instr := .load d 0#11 (List.replicate 2048 b)

/-- `PUTS <port>, "text"`, one `IOWR` per character, in order (R106). -/
def pseudoPuts (port : PortNum) (text : List Byte) : List Instr := text.map (Instr.iowr port)

/-- `REFMAP` (R106). -/
def pseudoRefmap : List Instr := [.install 0#5 1#5, .install 1#5 2#5]

/-- A line of a script (R105), its mnemonic and operands already read: an address is any integer, a line of input is
quoted text or listed bytes; and the pseudo-operations (R106). -/
inductive ScriptLine where
  | mrd (addr : Int)
  | mwr (addr : Int) (value : Byte)
  | iord (port : PortNum)
  | iowr (port : PortNum) (value : Byte)
  | install (w : WinIx) (d : DevIx)
  | load (d : DevIx) (origin : Offset) (bytes : List Byte)
  | start
  | lineText (text : String)
  | lineBytes (bytes : List Byte)
  | disp
  | fill (d : DevIx) (b : Byte)
  | puts (port : PortNum) (text : String)
  | refmap
deriving DecidableEq, Repr

/-- The operations a script line stands for (R105, R106); none where a character's code is 256 or more (R105).
DESIGN CHOICE (log entry 16): a `LOAD` of more than 4095 bytes or a `LINE` of more than 65535 characters, which has no
command word, yields its operation all the same. -/
def assemble : ScriptLine → Option (List Instr)
  | .mrd addr => some [asmMrd addr]
  | .mwr addr value => some [asmMwr addr value]
  | .iord port => some [.iord port]
  | .iowr port value => some [.iowr port value]
  | .install w d => some [.install w d]
  | .load d origin bytes => some [.load d origin bytes]
  | .start => some [.start]
  | .lineText text => (asmLine (textCodes text)).map fun i => [i]
  | .lineBytes bytes => some [.line bytes]
  | .disp => some [.disp]
  | .fill d b => some [pseudoFill d b]
  | .puts port text =>
    if (textCodes text).all (fun c => decide (c < 256)) then
      some (pseudoPuts port ((textCodes text).map (BitVec.ofNat 8)))
    else none
  | .refmap => some pseudoRefmap

/-- The operations of a list executed in order, up to the first refusal. DESIGN CHOICE (log entry 16): an operation
whose payload is too long for its `LEN` field is executed by its own rule, not refused for its length. -/
def execAll : List Instr → State → Host.Outcome State Fault Refusal
  | [], s => .next s
  | i :: is, s =>
    match exec i s with
    | .next t => execAll is t
    | .fault r => .fault r
    | .refused r => .refused r

end Sys2Proof.Machine
end

