-- ==== Sys2Proof/Machine/Environment.lean ====
section
/-! DEFINITION. The environment rules (R208 to R213, R235 to R239): what the source settles about the bootstrap and the
Execution Loop that drive the block. They add no state and no operation to it; `step` does not use this file. -/

namespace Sys2Proof.Machine

/-- The bootstrap fill (R237): `FILL d, FILL_BYTE` for every device whose tag is `RW`. -/
def bootFill (c : Config) (fillByte : Byte) : List Instr :=
  ((List.range (ndev c)).filter fun d => decide (tagOf c d = .rw)).map fun d => pseudoFill (BitVec.ofNat 5 d) fillByte

/-- The order of the boot sequence (R235): install, fill, load, push, then `START`, never earlier and exactly once
(R236). Which bytes the push of `SP_INIT` writes is the CPU's affair (R238), so they are an argument; the source
leaves the order of loads and push open, and this takes the order in which R235 lists them. -/
def bootSequence (c : Config) (installs : List (WinIx × DevIx)) (fillByte : Byte)
    (loads : List (DevIx × Offset × List Byte)) (push : List (Addr × Byte)) : List Instr :=
  installs.map (fun x => .install x.1 x.2) ++ bootFill c fillByte ++ loads.map (fun x => .load x.1 x.2.1 x.2.2) ++
    push.map (fun x => .mwr x.1 x.2) ++ [.start]

/-- How a run stands (R212): going on, ended by the halted flag, or ended as fatal with the address reported (R210). -/
inductive LoopStatus where
  | running
  | halted
  | fatal (reported : Addr)
deriving DecidableEq, Repr

/-- What the Execution Loop keeps and what it sees of the CPU (R208, R209, R214). -/
structure Loop where
  /-- the pending-interrupt flag -/
  pendingInt : Bool
  /-- the rollback point of the current cycle -/
  rollback : Addr
  /-- the CPU's program counter -/
  pc : Addr
  status : LoopStatus
deriving DecidableEq, Repr

/-- What a cycle asks of the CPU (R208): service an interrupt with a vector, or execute one instruction. -/
inductive CpuCall where
  | interrupt (vector : Byte)
  | execute
deriving DecidableEq, Repr

/-- How the CPU answers (R214): its program counter and halted flag afterwards, or an execution fault. -/
inductive CpuAnswer where
  | done (pc : Addr) (halted : Bool)
  | executionFault
deriving DecidableEq, Repr

/-- The call of the next cycle: with the flag set, the interrupt with the fixed vector 0 in place of the instruction
(R207, R208, R209). -/
def loopCall (l : Loop) : CpuCall := if l.pendingInt then .interrupt 0#8 else .execute

/-- One cycle (R208, R210, R211): the rollback point is captured, the flag is clear afterwards, and a fault restores
the program counter and ends the run as fatal, with no retry. A run that has ended has no further cycle. -/
def loopCycle (l : Loop) (answer : CpuAnswer) : Loop :=
  match l.status with
  | .running =>
    match answer with
    | .done pc halted =>
      { pendingInt := false, rollback := l.pc, pc := pc, status := if halted then .halted else .running }
    | .executionFault => { pendingInt := false, rollback := l.pc, pc := l.pc, status := .fatal l.pc }
  | .halted => l
  | .fatal _ => l

/-- Raising the interrupt flag, a move of an outside agent between two cycles (R209). -/
def loopRaise (l : Loop) : Loop := { l with pendingInt := true }

end Sys2Proof.Machine
end

