-- ==== Sys2Proof/Safety.lean ====
section
/-! DEFINITION. What claims about the whole block are stated in: the invariant, a safe step, and a run, in which the
outside agents act between the steps. -/

namespace Sys2Proof.Machine

/-- What every reachable state satisfies. -/
structure State.Inv (s : State) : Prop where
  /-- the configuration the block started from is well formed (R104) -/
  config : s.cfg.wellFormed = true
  /-- every window maps to exactly one device of the table (R32) -/
  mapped : ∀ w : WinIx, (s.wmapAt w).toNat < ndev s.cfg
  /-- the byte store is in canonical form -/
  canonical : s.buf.wf
  /-- only buffered devices hold bytes (R38) -/
  owned : ∀ k v, (k, v) ∈ s.buf → buffered (tagOf s.cfg (k / 2048)) = true
  /-- the input queue is no longer than a line (R42) -/
  queue : lineFits s.cfg s.inq.length = true
  /-- the output window is no longer than `DISP_N` (R43) -/
  window : s.outw.length ≤ s.cfg.dispN
  /-- every byte of the output window is 32 or above (R43) -/
  printable : ∀ b ∈ s.outw, 32 ≤ b.toNat
  /-- a suspended read found the queue empty, and nothing has filled it since (R42, R173) -/
  emptyInWait : s.wait = true → s.inq = []

/-- A step is safe when it answers a next state: no refusal (the block has no fault, R200). -/
def SafeStep (s : State) : Prop := ∃ t, step s = .next t

/-- A run: steps of the block, between which an agent may present a transaction on any port, the CPU only while none of
its own is pending (R244), or collect a response (R19, R76). No reset happens within a run (R231). -/
inductive Run : State → State → Prop where
  | refl (s : State) : Run s s
  | step {s t u : State} : Run s t → Machine.step t = .next u → Run s u
  | present {s t u : State} {x : Transaction} : Run s t → t.present x = some u → Run s u
  | takeCpu {s t u : State} {v : Byte} : Run s t → takeCpuResponse t = some (v, u) → Run s u
  | takeDisplay {s t u : State} {d : List Byte} : Run s t → Machine.takeDisplay t = some (d, u) → Run s u

end Sys2Proof.Machine
end

