-- ==== Sys2Proof/Certificates/Slice0/Obligations.lean ====
section
/-! DEFINITION. The statements for the provers. Where a statement needs a notion of its own (a zero mask, a list of
writes) it stands first, under `Sys2Proof.Claims`. -/

namespace Sys2Proof.Claims
open Sys2Proof.Machine

/-- `BUF[d][o]` (R14): the byte loaded or written, or the free `INIT_IMAGE` byte where nothing has been (R39). -/
def bufByte (s : State) (d o : Nat) : Byte := (s.buf.byteAt? (cellKey d o)).getD (Config.initImage s.boot d o)

/-- The operation is spelled by this word and payload, and on this port only. -/
def SpelledBy (i : Instr) (p : Port) (word : Nat) (payload : List Byte) : Prop :=
  (encode i).word.toNat = word ∧ (encode i).payload = payload ∧
    ∀ q : Port, decode ⟨q, (encode i).word, payload⟩ = .op i ↔ q = p

/-- The bits the format of an opcode calls zero (R101 (b)). -/
def zeroMask : Nat → Word
  | 0x0 => 0x0F0000FF#32
  | 0x1 => 0x0F000000#32
  | 0x2 => 0x0F0000FF#32
  | 0x3 => 0x0F000000#32
  | 0x4 => 0x0FFFE0E0#32
  | 0x6 => 0x0FFFFFFF#32
  | 0x8 => 0x0FFF0000#32
  | 0x9 => 0x0FFFFFFF#32
  | _ => 0x00000000#32

/-- The value of `OP[3:2]` that names a port (R98). -/
def portNumber : Port → Nat
  | .cpu => 0
  | .setup => 1
  | .operator => 2

/-- The payload length a word announces: `word[11:0]` for `OP = 0x5`, `word[15:0]` for `OP = 0x8`, none else (R102). -/
def announced (w : Word) : Nat :=
  if w.toNat / 2 ^ 28 = 0x5 then w.toNat % 2 ^ 12
  else if w.toNat / 2 ^ 28 = 0x8 then w.toNat % 2 ^ 16
  else 0

/-- R101 (a), (b) and (c). -/
def SpellsNothing (p : Port) (w : Word) : Prop :=
  let op := w.toNat / 2 ^ 28
  (op = 0x7 ∨ 0xA ≤ op) ∨ w &&& zeroMask op ≠ 0#32 ∨ op / 4 ≠ portNumber p

/-- The preconditions the rules give each operation: the conditions under which it neither holds nor is refused. -/
def InRange (s : State) : Instr → Prop
  | .mrd _ => s.wait = false
  | .mwr _ _ => s.wait = false
  | .iord _ => s.wait = false
  | .iowr _ _ => s.wait = false
  | .install _ d => s.wait = false ∧ s.phase = .setup ∧ d.toNat < ndev s.cfg
  | .load d origin bytes =>
    s.wait = false ∧ s.phase = .setup ∧ d.toNat < ndev s.cfg ∧ origin.toNat + bytes.length ≤ 2048
  | .start => s.wait = false ∧ s.phase = .setup
  | .line bytes => s.wait = true ∧ ∀ m, s.cfg.lineMax = some m → bytes.length ≤ m
  | .disp => True

/-- The first check of R207 that fails once the operation does not hold, in the order `NotInSetup`, `BadDevice`,
`LoadRange`, and for `LINE` `LineNotRequested`, `LineTooLong`. -/
def verdict (s : State) : Instr → Option Refusal
  | .mrd _ => none
  | .mwr _ _ => none
  | .iord _ => none
  | .iowr _ _ => none
  | .install _ d =>
    if s.phase = .run then some .notInSetup else if ndev s.cfg ≤ d.toNat then some .badDevice else none
  | .load d origin bytes =>
    if s.phase = .run then some .notInSetup
    else if ndev s.cfg ≤ d.toNat then some .badDevice
    else if 2048 < origin.toNat + bytes.length then some .loadRange
    else none
  | .start => if s.phase = .run then some .notInSetup else none
  | .line bytes =>
    if s.wait = false then some .lineNotRequested
    else
      match s.cfg.lineMax with
      | none => none
      | some m => if m < bytes.length then some .lineTooLong else none
  | .disp => none

/-- A next state seen through a function; every other outcome as it is. -/
def mapNext (f : State → State) : Host.Outcome State Fault Refusal → Host.Outcome State Fault Refusal
  | .next t => .next (f t)
  | .fault r => .fault r
  | .refused r => .refused r

/-- A write at `x` lands on the byte that a read at `a` returns: a `RW` device, the same device, the same offset. -/
def lands (s : State) (x a : Addr) : Bool :=
  decide (tagOf s.cfg (deviceAt s x) = .rw ∧ deviceAt s x = deviceAt s a ∧ offsetOf x = offsetOf a)

/-- `IOWR`s one after another, each on its own port. -/
def consoleWrites (vs : List (PortNum × Byte)) : List Instr := vs.map fun x => .iowr x.1 x.2

/-- `MWR`s one after another. -/
def writes (ws : List (Addr × Byte)) : List Instr := ws.map fun x => .mwr x.1 x.2

/-- The reference configuration and map (R10): device 1 `RW` at window 0, device 2 `RO` at window 1, the rest
unmapped. -/
def ReferenceMap (s : State) : Prop :=
  s.cfg.tags = [.rw, .ro] ∧ ∀ w : WinIx, s.wmapAt w = if w = 0#5 then 1#5 else if w = 1#5 then 2#5 else 0#5

/-- The printable values written since the most recent control code, in order (R178). -/
def sinceControl (vs : List Byte) : List Byte := (vs.reverse.takeWhile fun v => decide (32 ≤ v.toNat)).reverse

/-- The straps carry a well-formed configuration (R104). -/
def StrapsGood (p : Straps) : Prop :=
  1 ≤ p.ndev.toNat ∧ p.ndev.toNat ≤ 32 ∧ (∀ d, 1 ≤ d → d < p.ndev.toNat → p.tag[d - 1]? ≠ some 0b10#2) ∧
    1 ≤ p.dispN ∧ ∀ m, p.lineMax = some m → 1 ≤ m

end Sys2Proof.Claims

open Sys2Proof Sys2Proof.Machine Sys2Proof.Claims

/-! Encoding. -/

/-- R103: decoding is total, and encoding and decoding are inverse to each other. -/
def Obligations.EncodingAndDecodingAreInverse : Prop :=
  (∀ t : Transaction, (∃ i, decode t = .op i) ∨ ∃ r, decode t = .bad r) ∧
    (∀ i : Instr, i.wellFormed = true → decode (encode i) = .op i) ∧
      ∀ (t : Transaction) (i : Instr), decode t = .op i → i.wellFormed = true ∧ encode i = t

/-- R101: with its announced payload a word is rejected exactly in the cases (a), (b), (c), and is then refused as
`BadEncoding`; and no operation refuses so, its own range checks giving their own reasons. -/
def Obligations.BadEncodingExactlyInCasesAbc : Prop :=
  (∀ (p : Port) (w : Word) (payload : List Byte), payload.length = announced w →
      ((∃ r, decode ⟨p, w, payload⟩ = .bad r) ↔ SpellsNothing p w)) ∧
    (∀ (s : State) (t : Transaction) (rest : List Transaction) (r : Reject), s.cfg.wellFormed = true →
      t.payload.length = announced t.word → s.arrivals = t :: rest → decode t = .bad r →
        step s = .refused .badEncoding) ∧
    (∀ (i : Instr) (s : State), exec i s ≠ .refused .badEncoding) ∧
    ∀ (s : State) (w : WinIx) (d : DevIx) (origin : Offset) (bytes : List Byte), s.phase = .setup →
      (s.wait = false → ndev s.cfg ≤ d.toNat →
        exec (.install w d) s = .refused .badDevice ∧ exec (.load d origin bytes) s = .refused .badDevice) ∧
      (s.wait = false → d.toNat < ndev s.cfg → 2048 < origin.toNat + bytes.length →
        exec (.load d origin bytes) s = .refused .loadRange) ∧
      (∀ m, s.wait = true → s.cfg.lineMax = some m → m < bytes.length → exec (.line bytes) s = .refused .lineTooLong)

/-- Log entry 6 (DESIGN CHOICE): a payload of another length than the word announces makes no transaction; the decoder
rejects it, and the step refuses it. -/
def Obligations.PayloadOfWrongLengthIsRejected : Prop :=
  ∀ (p : Port) (w : Word) (payload : List Byte), payload.length ≠ announced w →
    (∃ r, decode ⟨p, w, payload⟩ = .bad r) ∧
      ∀ (s : State) (rest : List Transaction), s.cfg.wellFormed = true → s.arrivals = ⟨p, w, payload⟩ :: rest →
        step s = .refused .badEncoding

/-- R107: the worked encodings. -/
def Obligations.WorkedEncodingsDecode : Prop :=
  encode (asmMrd 0x0800) = ⟨.cpu, 0x00080000#32, []⟩ ∧ encode (asmMrd 0xFFFF) = ⟨.cpu, 0x00FFFF00#32, []⟩ ∧
  encode (asmMrd 0x10000) = ⟨.cpu, 0x00000000#32, []⟩ ∧ asmMrd 0x10000 = asmMrd 0 ∧
  encode (asmMwr 0x0123 0xAB#8) = ⟨.cpu, 0x100123AB#32, []⟩ ∧ encode (.iord 1#16) = ⟨.cpu, 0x20000100#32, []⟩ ∧
  encode (.iowr 1#16 0x41#8) = ⟨.cpu, 0x30000141#32, []⟩ ∧ encode (.install 1#5 2#5) = ⟨.setup, 0x40000102#32, []⟩ ∧
  encode (.install 31#5 1#5) = ⟨.setup, 0x40001F01#32, []⟩ ∧
  (∀ a b c d e : Byte, encode (.load 1#5 0x000#11 [a, b, c, d, e]) = ⟨.setup, 0x50800005#32, [a, b, c, d, e]⟩) ∧
  (∀ a b : Byte, encode (.load 2#5 0x7FE#11 [a, b]) = ⟨.setup, 0x517FE002#32, [a, b]⟩) ∧
  encode .start = ⟨.setup, 0x60000000#32, []⟩ ∧
  encode (.line [0x41#8, 0x42#8]) = ⟨.operator, 0x80000002#32, [0x41#8, 0x42#8]⟩ ∧
  encode (.line []) = ⟨.operator, 0x80000000#32, []⟩ ∧ encode .disp = ⟨.operator, 0x90000000#32, []⟩ ∧
  decode ⟨.cpu, 0x100123AB#32, []⟩ = .op (.mwr 0x0123#16 0xAB#8) ∧
  decode ⟨.setup, 0x40001F01#32, []⟩ = .op (.install 31#5 1#5) ∧
  decode ⟨.operator, 0x80000002#32, [0x41#8, 0x42#8]⟩ = .op (.line [0x41#8, 0x42#8])

/-! Taking up transactions. -/

/-- A step runs the decoded operation: the oldest pending transaction, when it does not hold, is taken out of the
pending ones and its operation executed (R76, R90, R204). -/
def Obligations.StepRunsTheOldestTransaction : Prop :=
  ∀ (s : State) (t : Transaction) (rest : List Transaction) (i : Instr), s.cfg.wellFormed = true →
    s.arrivals = t :: rest → decode t = .op i → (s.wait = false ∨ holdsInWait i = false) →
      step s = exec i { s with arrivals := rest }

/-- While a read is suspended a step passes over the holding transactions, in front of which nothing else has arrived,
and runs the operator's; with only holding ones pending nothing happens (R204, R205). With nothing pending a block
with a well-formed configuration stays as it is: it is passive (R19), and that its idling is a step is the model's choice
(log entry 8). -/
def Obligations.WaitPassesOverHoldingTransactions : Prop :=
  ∀ (s : State) (held rest : List Transaction) (t : Transaction) (i : Instr), s.cfg.wellFormed = true →
    (∀ h ∈ held, ∃ j, decode h = .op j ∧ holdsInWait j = true) →
      (s.wait = true → s.arrivals = held ++ t :: rest → decode t = .op i → holdsInWait i = false →
        step s = exec i { s with arrivals := held ++ rest }) ∧
      (s.wait = true → s.arrivals = held → step s = .next s) ∧
      (s.arrivals = [] → step s = .next s)

/-- An operation that holds changes nothing, responds nothing and stays pending (R204). -/
def Obligations.HeldOperationStaysPending : Prop :=
  ∀ (s : State) (i : Instr), s.wait = true → holdsInWait i = true →
    exec i s = .next { s with arrivals := encode i :: s.arrivals }

/-- The checks of one operation are made in the fixed order of R207 and the first that fails decides: its reason is the
refusal, and an operation that does not hold and fails none answers a next state. -/
def Obligations.FirstFailingCheckDecides : Prop :=
  ∀ (s : State) (i : Instr), ¬(s.wait = true ∧ holdsInWait i = true) →
    (∀ r, verdict s i = some r → exec i s = .refused r) ∧ (verdict s i = none → ∃ t, exec i s = .next t)

/-- A table word placed for the next fetch is run by the next step, on the state it was placed in (log entry 4). -/
def Obligations.StepRunsThePlacedWord : Prop :=
  ∀ (s : State) (nbits w : Nat) (i : Instr), s.cfg.wellFormed = true → s.wait = false →
    decodeTableWord nbits w = some i → step (s.withFetchWord nbits w) = exec i s

/-! The bus. -/

/-- R63: window and offset are quotient and remainder by 2048, they partition the address, and every pair is the
decode of exactly one address. -/
def Obligations.AddressSplitsIntoWindowAndOffset : Prop :=
  (∀ a : Addr, (windowOf a).toNat = a.toNat >>> 11 ∧ (offsetOf a).toNat = a.toNat &&& 0x07FF ∧
      a.toNat = (windowOf a).toNat <<< 11 ||| (offsetOf a).toNat) ∧
    ∀ (w : WinIx) (o : Offset), ∃! a : Addr, windowOf a = w ∧ offsetOf a = o

/-- R62: any integer address is used modulo 65536, in the primitives and by the assembler, the same as the low 16 bits
in two's complement; the rule's instances. -/
def Obligations.AddressesWrapAtSixteenBits : Prop :=
  (∀ (s : State) (a : Int) (v : Byte), ((reduceAddr a).toNat : Int) = a % 65536 ∧ reduceAddr a = BitVec.ofInt 16 a ∧
      memRead s a = memRead s (a % 65536) ∧ memWrite s a v = memWrite s (a % 65536) v ∧
      asmMrd a = asmMrd (a % 65536) ∧ asmMwr a v = asmMwr (a % 65536) v ∧ (windowOf (reduceAddr a)).toNat < 32) ∧
    reduceAddr 0x10000 = 0x0000#16 ∧ reduceAddr 0x1FFFF = 0xFFFF#16 ∧ reduceAddr (-1) = 0xFFFF#16

/-- R120: `MRD`. Its next state is the old one with the response; while `WAIT = 1` it holds. -/
def Obligations.MrdRespondsWithTheMappedByte : Prop :=
  ∀ (s : State) (addr : Int) (w : WinIx) (o : Offset), addr % 65536 = w.toNat * 2048 + o.toNat →
    SpelledBy (asmMrd addr) .cpu ((addr % 65536).toNat * 2 ^ 8) [] ∧
    (s.wait = true → exec (asmMrd addr) s = .next { s with arrivals := encode (asmMrd addr) :: s.arrivals }) ∧
    (s.wait = false →
      exec (asmMrd addr) s = .next { s with cRsp := s.cRsp ++
        [if tagOf s.cfg (s.wmapAt w).toNat = .unmapped then s.cfg.sentinel
          else bufByte s (s.wmapAt w).toNat o.toNat] })

/-- R121: `MWR`. Its next state differs from the old one in the buffers only, and there in the one byte of a `RW`
device; while `WAIT = 1` it holds. -/
def Obligations.MwrWritesTheMappedByteOfRamOnly : Prop :=
  ∀ (s : State) (addr : Int) (v : Byte) (w : WinIx) (o : Offset), addr % 65536 = w.toNat * 2048 + o.toNat →
    SpelledBy (asmMwr addr v) .cpu (0x10000000 + (addr % 65536).toNat * 2 ^ 8 + v.toNat) [] ∧
    (s.wait = true → exec (asmMwr addr v) s = .next { s with arrivals := encode (asmMwr addr v) :: s.arrivals }) ∧
    (s.wait = false → ∃ t, exec (asmMwr addr v) s = .next t ∧ t = { s with buf := t.buf } ∧
      ∀ d p : Nat, p < 2048 → bufByte t d p =
        if d = (s.wmapAt w).toNat ∧ p = o.toNat ∧ tagOf s.cfg d = .rw then v else bufByte s d p)

/-- R122: the laws of the family, (a) to (d) in the reference configuration after any sequence of writes, and the law
of every configuration. -/
def Obligations.BusLawsOfTheReferenceMap : Prop :=
  (∀ (s t : State) (ws : List (Addr × Byte)), ReferenceMap s → s.wait = false → execAll (writes ws) s = .next t →
      (∀ a : Addr, a.toNat ≤ 0x07FF →
        memRead t a.toNat = ws.foldl (fun v x => if x.1 = a then x.2 else v) (memRead s a.toNat)) ∧
      (∀ a : Addr, 0x0800 ≤ a.toNat → a.toNat ≤ 0x0FFF → memRead t a.toNat = memRead s a.toNat) ∧
      (∀ a : Addr, 0x1000 ≤ a.toNat → memRead t a.toNat = s.cfg.sentinel) ∧
      memRead t 0x10000 = memRead t 0) ∧
    ∀ (s t : State) (a : Addr) (v : Byte), s.wait = false → exec (.mwr a v) s = .next t →
      (memRead t a.toNat = v ↔ tagOf s.cfg (deviceAt s a) = .rw ∨ memRead s a.toNat = v)

/-- Writing twice is writing once, in the whole state (R70); and writing the value a byte already holds leaves every
byte of every buffer as it was (R121 (f)). -/
def Obligations.RewritingAByteChangesNothing : Prop :=
  ∀ (s t : State) (a : Addr) (v : Byte), s.wait = false → exec (.mwr a v) s = .next t →
    exec (.mwr a v) t = .next t ∧
      (memRead s a.toNat = v → ∀ d p : Nat, p < 2048 → bufByte t d p = bufByte s d p)

/-- R75: after any sequence of writes, from any state and under any map, a read responds with the value of the most
recent write that lands on its byte, or failing any with the byte as it was; no write fails and nothing but buffer
bytes changes. -/
def Obligations.ReadReturnsTheMostRecentWrite : Prop :=
  ∀ (s : State) (ws : List (Addr × Byte)) (a : Addr), s.wait = false →
    ∃ t, execAll (writes ws) s = .next t ∧ t = { s with buf := t.buf } ∧
      exec (.mrd a) t = .next { t with cRsp := s.cRsp ++
        [ws.foldl (fun v x => if lands s x.1 a then x.2 else v) (memRead s a.toNat)] }

/-- R47: a device mapped at two windows is one device: equal offsets read alike, and a write through one window is
read back through the other. -/
def Obligations.AliasedWindowsShareTheirBytes : Prop :=
  ∀ (s : State) (w x : WinIx) (o : Offset) (v : Byte), s.wmapAt w = s.wmapAt x →
    memRead s (addrOf w o).toNat = memRead s (addrOf x o).toNat ∧
      (s.wait = false → tagOf s.cfg (s.wmapAt w).toNat = .rw →
        ∃ t, exec (.mwr (addrOf w o) v) s = .next t ∧ memRead t (addrOf x o).toNat = v)

/-! The devices and the setup operations. -/

/-- R140: `DevRead`. -/
def Obligations.DevReadFollowsTheTag : Prop :=
  ∀ (s : State) (d o : Nat), d < ndev s.cfg → o < 2048 →
    (tagOf s.cfg d = .rw ∨ tagOf s.cfg d = .ro → devRead s d o = bufByte s d o) ∧
      (tagOf s.cfg d = .unmapped → devRead s d o = s.cfg.sentinel)

/-- R141: `DevWrite`. -/
def Obligations.DevWriteReachesRamOnly : Prop :=
  ∀ (s : State) (d o : Nat) (v : Byte), d < ndev s.cfg → o < 2048 →
    (tagOf s.cfg d = .rw →
      devWrite s d o v = { s with buf := (devWrite s d o v).buf } ∧
        ∀ e p : Nat, p < 2048 →
          bufByte (devWrite s d o v) e p = if e = d ∧ p = o then v else bufByte s e p) ∧
      (tagOf s.cfg d = .ro ∨ tagOf s.cfg d = .unmapped → devWrite s d o v = s)

/-- R142: `DevLoad`. -/
def Obligations.DevLoadPlacesBytesAscending : Prop :=
  ∀ (s : State) (d origin : Nat) (bytes : List Byte), d < ndev s.cfg → origin + bytes.length ≤ 2048 →
    (tagOf s.cfg d = .rw ∨ tagOf s.cfg d = .ro →
      devLoad s d origin bytes = { s with buf := (devLoad s d origin bytes).buf } ∧
        (∀ i (h : i < bytes.length), bufByte (devLoad s d origin bytes) d (origin + i) = bytes[i]) ∧
        ∀ e p : Nat, p < 2048 → ¬(e = d ∧ origin ≤ p ∧ p < origin + bytes.length) →
          bufByte (devLoad s d origin bytes) e p = bufByte s e p) ∧
      (tagOf s.cfg d = .unmapped → devLoad s d origin bytes = s)

/-- R144: `INSTALL`. -/
def Obligations.InstallSetsOneMapEntry : Prop :=
  ∀ (s : State) (w : WinIx) (d : DevIx),
    SpelledBy (.install w d) .setup (0x40000000 + w.toNat * 2 ^ 8 + d.toNat) [] ∧
    (s.wait = true → exec (.install w d) s = .next { s with arrivals := encode (.install w d) :: s.arrivals }) ∧
    (s.wait = false → s.phase ≠ .setup → exec (.install w d) s = .refused .notInSetup) ∧
    (s.wait = false → s.phase = .setup → ndev s.cfg ≤ d.toNat → exec (.install w d) s = .refused .badDevice) ∧
    (s.wait = false → s.phase = .setup → d.toNat < ndev s.cfg →
      ∃ t, exec (.install w d) s = .next t ∧ t = { s with wmap := t.wmap } ∧
        ∀ x : WinIx, t.wmapAt x = if x = w then d else s.wmapAt x)

/-- R145: `LOAD`. -/
def Obligations.LoadFillsTheNamedDevice : Prop :=
  ∀ (s : State) (d : DevIx) (origin : Offset) (bytes : List Byte),
    (bytes.length ≤ 4095 → SpelledBy (.load d origin bytes) .setup
      (0x50000000 + d.toNat * 2 ^ 23 + origin.toNat * 2 ^ 12 + bytes.length) bytes) ∧
    (s.wait = true →
      exec (.load d origin bytes) s = .next { s with arrivals := encode (.load d origin bytes) :: s.arrivals }) ∧
    (s.wait = false → s.phase ≠ .setup → exec (.load d origin bytes) s = .refused .notInSetup) ∧
    (s.wait = false → s.phase = .setup → ndev s.cfg ≤ d.toNat →
      exec (.load d origin bytes) s = .refused .badDevice) ∧
    (s.wait = false → s.phase = .setup → d.toNat < ndev s.cfg → 2048 < origin.toNat + bytes.length →
      exec (.load d origin bytes) s = .refused .loadRange) ∧
    (s.wait = false → s.phase = .setup → d.toNat < ndev s.cfg → origin.toNat + bytes.length ≤ 2048 →
      ∃ t, exec (.load d origin bytes) s = .next t ∧ t = { s with buf := t.buf } ∧
        (tagOf s.cfg d.toNat = .unmapped → t = s) ∧
        (tagOf s.cfg d.toNat ≠ .unmapped →
          ∀ i (h : i < bytes.length), bufByte t d.toNat (origin.toNat + i) = bytes[i]) ∧
        ∀ e p : Nat, p < 2048 → ¬(e = d.toNat ∧ origin.toNat ≤ p ∧ p < origin.toNat + bytes.length) →
          bufByte t e p = bufByte s e p)

/-- R146: `START`. -/
def Obligations.StartEndsTheSetupPhase : Prop :=
  SpelledBy .start .setup 0x60000000 [] ∧
    ∀ s : State,
      (s.wait = true → exec .start s = .next { s with arrivals := encode .start :: s.arrivals }) ∧
      (s.wait = false → s.phase ≠ .setup → exec .start s = .refused .notInSetup) ∧
      (s.wait = false → s.phase = .setup → exec .start s = .next { s with phase := .run })

/-- `PHASE` changes only by `START`, and only from `SETUP` to `RUN` (R34, R216). -/
def Obligations.OnlyStartChangesThePhase : Prop :=
  ∀ s t : State, step s = .next t → t.phase ≠ s.phase →
    s.phase = .setup ∧ t.phase = .run ∧ s.wait = false ∧ ∃ x ∈ s.arrivals, decode x = .op .start

/-- `WMAP` is written only by `INSTALL`, one entry at a time and only in `SETUP` (R31, R72). -/
def Obligations.OnlyInstallChangesTheMap : Prop :=
  ∀ s t : State, step s = .next t → t.wmap ≠ s.wmap →
    s.phase = .setup ∧ ∃ x ∈ s.arrivals, ∃ w d, decode x = .op (.install w d) ∧ d.toNat < ndev s.cfg ∧
      ∀ y : WinIx, t.wmapAt y = if y = w then d else s.wmapAt y

/-- A buffer byte changes only by an `MWR` that reaches it in a `RW` device, or by a `LOAD` in `SETUP` whose range takes
it in; the new byte is the value written, or the byte of the sequence that goes to its offset (R38, R244). -/
def Obligations.OnlyMwrAndLoadChangeBuffers : Prop :=
  ∀ (s t : State) (d o : Nat), step s = .next t → o < 2048 → bufByte t d o ≠ bufByte s d o →
    ∃ x ∈ s.arrivals,
      (∃ a v, decode x = .op (.mwr a v) ∧ tagOf s.cfg d = .rw ∧ deviceAt s a = d ∧ (offsetOf a).toNat = o ∧
        bufByte t d o = v) ∨
      ∃ e origin bytes, decode x = .op (.load e origin bytes) ∧ s.phase = .setup ∧ e.toNat = d ∧
        tagOf s.cfg d ≠ .unmapped ∧ origin.toNat ≤ o ∧ o < origin.toNat + bytes.length ∧
        bytes[o - origin.toNat]? = some (bufByte t d o)

/-- Once in `RUN`, whatever the agents present and however long the run, the phase, the map and the configuration stay
as they are: the topology is immutable thereafter (R34, R104). -/
def Obligations.TopologyIsFixedInRun : Prop :=
  ∀ s t : State, Run s t → s.phase = .run → t.phase = .run ∧ t.wmap = s.wmap ∧ t.cfg = s.cfg

/-- Once in `RUN`, no run changes what a `RO` or an `UNMAPPED` device answers: write protection holds for good
(R73, R75). -/
def Obligations.RomNeverChangesInRun : Prop :=
  ∀ (s t : State) (d o : Nat), Run s t → s.phase = .run → o < 2048 → tagOf s.cfg d ≠ .rw →
    devRead t d o = devRead s d o

/-- The pseudo-operation `REFMAP` builds the reference map from an empty one (R10, R106). -/
def Obligations.RefmapBuildsTheReferenceMap : Prop :=
  ∀ s : State, s.wait = false → s.phase = .setup → s.cfg.tags = [.rw, .ro] → (∀ w : WinIx, s.wmapAt w = 0#5) →
    ∃ t, execAll pseudoRefmap s = .next t ∧ ReferenceMap t ∧ t = { s with wmap := t.wmap }

/-! The console. -/

/-- R170: `IORD`. -/
def Obligations.IordTakesTheFrontOrSuspends : Prop :=
  ∀ (s : State) (port : PortNum),
    SpelledBy (.iord port) .cpu (0x20000000 + port.toNat * 2 ^ 8) [] ∧
    (s.wait = true → exec (.iord port) s = .next { s with arrivals := encode (.iord port) :: s.arrivals }) ∧
    (∀ c rest, s.wait = false → s.inq = c :: rest →
      exec (.iord port) s = .next { s with inq := rest, cRsp := s.cRsp ++ [c] }) ∧
    (s.wait = false → s.inq = [] → exec (.iord port) s = .next { s with wait := true })

/-- R171: `IOWR`. -/
def Obligations.IowrClearsOrAppends : Prop :=
  ∀ (s : State) (port : PortNum) (v : Byte),
    SpelledBy (.iowr port v) .cpu (0x30000000 + port.toNat * 2 ^ 8 + v.toNat) [] ∧
    (s.wait = true → exec (.iowr port v) s = .next { s with arrivals := encode (.iowr port v) :: s.arrivals }) ∧
    (s.wait = false → v.toNat < 32 → exec (.iowr port v) s = .next { s with outw := [] }) ∧
    (s.wait = false → 32 ≤ v.toNat → exec (.iowr port v) s =
      .next { s with outw := (s.outw ++ [v]).drop ((s.outw ++ [v]).length - s.cfg.dispN) })

/-- R173: `LINE`. The hypothesis that the queue is empty is not needed: the queue is replaced. -/
def Obligations.LineCompletesTheSuspendedRead : Prop :=
  ∀ (s : State) (bytes : List Byte),
    (bytes.length ≤ 65535 → SpelledBy (.line bytes) .operator (0x80000000 + bytes.length) bytes) ∧
    (s.wait = false → exec (.line bytes) s = .refused .lineNotRequested) ∧
    (∀ m, s.wait = true → s.cfg.lineMax = some m → m < bytes.length → exec (.line bytes) s = .refused .lineTooLong) ∧
    (s.wait = true → (∀ m, s.cfg.lineMax = some m → bytes.length ≤ m) →
      (bytes = [] → exec (.line bytes) s =
        .next { s with inq := [], wait := false, cRsp := s.cRsp ++ [s.cfg.placeholder] }) ∧
      ∀ c rest, bytes = c :: rest → exec (.line bytes) s =
        .next { s with inq := rest, wait := false, cRsp := s.cRsp ++ [c] })

/-- R175: `DISP`. -/
def Obligations.DispRespondsWithTheWindow : Prop :=
  SpelledBy .disp .operator 0x90000000 [] ∧
    ∀ s : State, exec .disp s = .next { s with oRsp := s.oRsp ++ [s.outw] }

/-- R82: the port number makes no difference, but for being part of a transaction that is still pending. -/
def Obligations.PortNumberIsIgnored : Prop :=
  ∀ (s : State) (p q : PortNum) (v : Byte),
    mapNext (fun t => { t with arrivals := [] }) (exec (.iord p) s) =
        mapNext (fun t => { t with arrivals := [] }) (exec (.iord q) s) ∧
      mapNext (fun t => { t with arrivals := [] }) (exec (.iowr p v) s) =
        mapNext (fun t => { t with arrivals := [] }) (exec (.iowr q v) s) ∧
      (s.wait = false → exec (.iord p) s = exec (.iord q) s ∧ exec (.iowr p v) s = exec (.iowr q v) s)

/-- A line is read first character first: the answer to the suspended read and as many reads as characters are left
respond with the line, in order, each read on whatever port, and the read after that suspends again (R42, R170, R173,
R178 (c)). -/
def Obligations.LineIsReadInOrder : Prop :=
  ∀ (s : State) (c : Byte) (rest : List Byte) (ports : List PortNum) (port : PortNum), s.wait = true →
    ports.length = rest.length → (∀ m, s.cfg.lineMax = some m → (c :: rest).length ≤ m) →
      let t := { s with inq := [], wait := false, cRsp := s.cRsp ++ c :: rest }
      execAll (.line (c :: rest) :: ports.map Instr.iord) s = .next t ∧
        exec (.iord port) t = .next { t with wait := true }

/-- After any sequence of console writes, each on whatever port, onto an empty window the window holds the last `min(k, DISP_N)` of the `k`
printable values written since the most recent control code, in order (R178). -/
def Obligations.WindowHoldsTheLastPrintables : Prop :=
  ∀ (s : State) (vs : List (PortNum × Byte)), s.wait = false → s.outw = [] →
    let printed := sinceControl (vs.map Prod.snd)
    execAll (consoleWrites vs) s = .next { s with outw := printed.drop (printed.length - s.cfg.dispN) }

/-- From any window content, `DISP_N` or more printable values, each on whatever port, leave exactly the last `DISP_N` of them (R178 (b)). -/
def Obligations.EnoughPrintablesFillTheWindow : Prop :=
  ∀ (s : State) (vs : List (PortNum × Byte)), s.wait = false → (∀ x ∈ vs, 32 ≤ x.2.toNat) →
    1 ≤ s.cfg.dispN → s.cfg.dispN ≤ vs.length →
      execAll (consoleWrites vs) s = .next { s with outw := (vs.map Prod.snd).drop (vs.length - s.cfg.dispN) }

/-- R177: the fused view gives the same responses and the same queue as the read and the line taken in turn. -/
def Obligations.FusedReadAgreesWithReadAndLine : Prop :=
  ∀ (s : State) (port : PortNum) (bytes : List Byte), s.wait = false → s.inq = [] →
    (∀ m, s.cfg.lineMax = some m → bytes.length ≤ m) →
      execAll [.iord port, .line bytes] s = .next (fusedIord bytes s) ∧
        (fusedIord bytes s).wait = false ∧
        ∃ c, c :: (fusedIord bytes s).inq = (if bytes = [] then [s.cfg.placeholder] else bytes) ∧
          (fusedIord bytes s).cRsp = s.cRsp ++ [c]

/-- While a read is suspended a step changes nothing of the memory side, the phase or the window and loses no holding
transaction; it leaves the read suspended with no response, or it was a `LINE`, which completed it with one byte
(R176, R204). -/
def Obligations.OnlyLineEndsTheWait : Prop :=
  ∀ s t : State, step s = .next t → s.wait = true →
    t.phase = s.phase ∧ t.wmap = s.wmap ∧ t.buf = s.buf ∧ t.outw = s.outw ∧
      (s.arrivals.filter (holding true)).Sublist t.arrivals ∧
      ((t.wait = true ∧ t.cRsp = s.cRsp ∧ t.inq = s.inq) ∨
        (t.wait = false ∧ ∃ x ∈ s.arrivals, ∃ bytes c, decode x = .op (.line bytes) ∧
          c :: t.inq = (if bytes = [] then [s.cfg.placeholder] else bytes) ∧ t.cRsp = s.cRsp ++ [c]))

/-! The whole block. -/

/-- R30: the memory side and the console share no state. The bus and setup operations neither see nor change the
console's buffers, and the console operations neither see nor change the map, the buffers or the phase. -/
def Obligations.MemoryAndConsoleAreSeparate : Prop :=
  (∀ (s : State) (q o : List Byte) (a : Addr) (v : Byte) (w : WinIx) (d : DevIx) (origin : Offset) (bs : List Byte),
      ∀ i ∈ [Instr.mrd a, .mwr a v, .install w d, .load d origin bs, .start],
        exec i { s with inq := q, outw := o } = mapNext (fun t => { t with inq := q, outw := o }) (exec i s) ∧
          ∀ t, exec i s = .next t → t.inq = s.inq ∧ t.outw = s.outw ∧ t.wait = s.wait) ∧
    ∀ (s : State) (p : Phase) (m : Vector DevIx 32) (b : Memory) (port : PortNum) (v : Byte) (bs : List Byte),
      ∀ i ∈ [Instr.iord port, .iowr port v, .line bs, .disp],
        exec i { s with phase := p, wmap := m, buf := b } =
            mapNext (fun t => { t with phase := p, wmap := m, buf := b }) (exec i s) ∧
          ∀ t, exec i s = .next t → t.phase = s.phase ∧ t.wmap = s.wmap ∧ t.buf = s.buf

/-- R200: every operation given a well-formed word and operands in range completes, and is done with; no step ever
faults, nor does any operation. -/
def Obligations.TransactionsInRangeComplete : Prop :=
  (∀ (s : State) (x : Transaction) (rest : List Transaction) (i : Instr), s.cfg.wellFormed = true →
      s.arrivals = x :: rest → decode x = .op i → InRange s i → ∃ t, step s = .next t ∧ t.arrivals = rest) ∧
    ∀ (s : State) (i : Instr) (f : Fault), step s ≠ .fault f ∧ exec i s ≠ .fault f

/-- Only `MRD`, `IORD` and `LINE` respond on the CPU port, with one byte, and only `DISP` on the operator port; no
response already given changes (R99). -/
def Obligations.RespondersAndTheirPorts : Prop :=
  ∀ (s t : State) (i : Instr), exec i s = .next t →
    (t.cRsp = s.cRsp ∨ (∃ v, t.cRsp = s.cRsp ++ [v]) ∧
      ((∃ a, i = .mrd a) ∨ (∃ p, i = .iord p) ∨ ∃ bs, i = .line bs)) ∧
    (t.oRsp = s.oRsp ∨ t.oRsp = s.oRsp ++ [s.outw] ∧ i = .disp)

/-- Every step keeps the invariant: a legal map, a canonical store owned by buffered devices, bounded console buffers,
printable bytes only, an empty queue during a wait. -/
def Obligations.StepKeepsTheInvariant : Prop := ∀ s t : State, s.Inv → step s = .next t → t.Inv

/-- The invariant holds after a reset with any well-formed configuration, the reference one included. -/
def Obligations.ResetSatisfiesTheInvariant : Prop :=
  State.reset.Inv ∧ ∀ (c : Config) (boot : Nat), c.wellFormed = true → (State.resetWith c boot).Inv

/-- R46: the value of every state element after a reset; a buffer byte is whatever the free image holds. -/
def Obligations.ResetValuesOfTheBlock : Prop :=
  ∀ (c : Config) (boot : Nat),
    let s := State.resetWith c boot
    s.phase = .setup ∧ phaseBit s.phase = 0#1 ∧ s.wait = false ∧ (∀ w : WinIx, s.wmapAt w = 0#5) ∧
      (∀ d o : Nat, bufByte s d o = Config.initImage boot d o) ∧ s.inq = [] ∧ s.outw = []

/-- R232: the block just after reset, before any setup. -/
def Obligations.BlockJustAfterReset : Prop :=
  ∀ (c : Config) (boot : Nat) (addr : Int) (v : Byte) (port : PortNum),
    let s := State.resetWith c boot
    exec (asmMrd addr) s = .next { s with cRsp := [c.sentinel] } ∧ exec (asmMwr addr v) s = .next s ∧
      exec .disp s = .next { s with oRsp := [[]] } ∧ exec (.iord port) s = .next { s with wait := true }

/-- R39: a byte that nothing has loaded or written reads as its `INIT_IMAGE` byte through every window that maps its
device, and the read completes. The statement holds for every image. -/
def Obligations.UnloadedByteReadsItsFreeImage : Prop :=
  ∀ (s : State) (w : WinIx) (o : Offset), s.wait = false → tagOf s.cfg (s.wmapAt w).toNat ≠ .unmapped →
    s.buf.byteAt? (cellKey (s.wmapAt w).toNat o.toNat) = none →
      exec (.mrd (addrOf w o)) s =
        .next { s with cRsp := s.cRsp ++ [Config.initImage s.boot (s.wmapAt w).toNat o.toNat] }

/-- R104: the straps are sampled at a reset, a configuration that is not well formed is refused with `BadConfig` at the
start and, which is the model's choice (log entry 11), at every step; no step changes the configuration. -/
def Obligations.StrapsAreSampledAndChecked : Prop :=
  (∀ (p : Straps) (boot : Nat), (powerOn p boot = .refused .badConfig ↔ ¬StrapsGood p) ∧
      (StrapsGood p → ∃ c, powerOn p boot = .next (State.resetWith c boot) ∧ ndev c = p.ndev.toNat ∧
        (∀ d, 1 ≤ d → d < p.ndev.toNat → p.tag[d - 1]? = some (tagBits (tagOf c d))) ∧
        c.sentinel = p.sentinel ∧ c.placeholder = p.placeholder ∧ c.dispN = p.dispN ∧ c.lineMax = p.lineMax ∧
        c.wellFormed = true)) ∧
    (∀ s : State, s.cfg.wellFormed = false → step s = .refused .badConfig) ∧
    ∀ s t : State, step s = .next t → t.cfg = s.cfg

/-- R40: the two strap bits of each tag, the reserved pair, and that the bits are the two gates. -/
def Obligations.TagBitsAreTheGates : Prop :=
  tagBits .unmapped = 0b00#2 ∧ tagBits .ro = 0b01#2 ∧ tagBits .rw = 0b11#2 ∧ tagOfBits 0b10#2 = none ∧
    ∀ t : Tag, tagOfBits (tagBits t) = some t ∧ tagBits t = BitVec.ofBool (writesPass t) ++ BitVec.ofBool (readsPass t)

/-- The reset input drops everything, a suspended read without a response, and the buffers hold the next free image
(R230, R231). That pending transactions and uncollected responses go too is the model's choice (log entry 12). -/
def Obligations.ResetAgainForgetsEverything : Prop :=
  ∀ (p : Straps) (s t : State), resetAgain p s = .next t →
    t.boot = s.boot + 1 ∧ t.phase = .setup ∧ t.wait = false ∧ t.inq = [] ∧ t.outw = [] ∧ t.cRsp = [] ∧
      t.oRsp = [] ∧ t.arrivals = [] ∧ (∀ w : WinIx, t.wmapAt w = 0#5) ∧ (∀ d o : Nat, bufByte t d o = Config.initImage (s.boot + 1) d o) ∧
      sampleStraps p = some t.cfg

/-- The operator-port boundary: a line with a character code of 256 or more is refused with `BadChar`; any other that
its length field can express arrives, last, as the bytes of its codes (R174). -/
def Obligations.WideCharactersAreRefused : Prop :=
  ∀ (s : State) (codes : List Nat),
    ((∃ c ∈ codes, 256 ≤ c) → typeLine codes s = .refused .badChar) ∧
      ((∀ c ∈ codes, c < 256) → codes.length ≤ 65535 →
        ∃ bytes : List Byte, bytes.map BitVec.toNat = codes ∧
          typeLine codes s = .next { s with arrivals := s.arrivals ++ [encode (.line bytes)] })

/-! The environment. -/

/-- The bootstrap fill leaves every byte of writable memory at the fill byte and every other device's bytes alone
(R237). -/
def Obligations.BootFillCoversWritableMemory : Prop :=
  ∀ (s : State) (b : Byte), s.cfg.wellFormed = true → s.wait = false → s.phase = .setup →
    ∃ t, execAll (bootFill s.cfg b) s = .next t ∧ t = { s with buf := t.buf } ∧
      ∀ d o : Nat, o < 2048 → bufByte t d o = if tagOf s.cfg d = .rw then b else bufByte s d o

/-- The boot sequence completes from a reset with every operand in range, in the order install, fill, load, push,
`START`, and ends in `RUN`: the last `INSTALL` of a window decides the map, and the console is as it was (R233, R235,
R236). The order of load and push is the model's choice (log entry 13). -/
def Obligations.BootSequenceEndsInRun : Prop :=
  ∀ (s : State) (installs : List (WinIx × DevIx)) (fillByte : Byte) (loads : List (DevIx × Offset × List Byte))
    (push : List (Addr × Byte)), s.cfg.wellFormed = true → s.wait = false → s.phase = .setup →
    (∀ x ∈ installs, x.2.toNat < ndev s.cfg) →
    (∀ x ∈ loads, x.1.toNat < ndev s.cfg ∧ x.2.1.toNat + x.2.2.length ≤ 2048) →
      ∃ t, execAll (bootSequence s.cfg installs fillByte loads push) s = .next t ∧
        t = { s with phase := .run, wmap := t.wmap, buf := t.buf } ∧
        ∀ w : WinIx, t.wmapAt w = installs.foldl (fun d x => if x.1 = w then x.2 else d) (s.wmapAt w)

/-- The Execution Loop: the pending flag chooses the call and is clear afterwards; a fault restores the program counter
to the rollback point, reports it and ends the run, after which no cycle changes anything (R208 to R211). That the flag is
clear after a faulting interrupt service too is the model's choice (log entry 13). -/
def Obligations.ExecutionFaultEndsTheRunAtItsAddress : Prop :=
  ∀ (l : Loop) (answer : CpuAnswer), l.status = .running →
    (l.pendingInt = true → loopCall l = .interrupt 0#8) ∧ (l.pendingInt = false → loopCall l = .execute) ∧
      (loopCycle l answer).rollback = l.pc ∧ (loopCycle l answer).pendingInt = false ∧
      (loopCycle l .executionFault).pc = l.pc ∧ (loopCycle l .executionFault).status = .fatal l.pc ∧
      loopCycle (loopCycle l .executionFault) answer = loopCycle l .executionFault

/-! The agents. -/

/-- The CPU never has two transactions pending: it has a move to present one exactly when none of its own is pending,
so a run that starts with at most one has at most one, and while a read is suspended none is waiting on the CPU port
(R244, R204). The equivalence also says that the setup layer and the operator may present while one of their own is
pending, which is the model's choice (log entry 5): R90 has one transaction at a time on each port. -/
def Obligations.CpuHasAtMostOneTransactionPending : Prop :=
  (∀ (s : State) (x : Transaction), s.present x = none ↔ x.port = .cpu ∧ 1 ≤ cpuPending s) ∧
    ∀ s t : State, Run s t → cpuPending s ≤ 1 →
      cpuPending t ≤ 1 ∧ (t.wait = true → ∀ x ∈ t.arrivals, x.port ≠ .cpu)
end

