-- ==== Sys2Proof/Laws/Decode.lean ====
section
/-! SUPPORT. The fields of an encoded word, and a word as the joining of its fields. -/

namespace Sys2Proof

/-- `hasLength` says what its name says. -/
theorem hasLength_iff {α : Type} (xs : List α) (n : Nat) : hasLength xs n = true ↔ xs.length = n := by
  induction xs generalizing n with
  | nil => cases n <;> simp [hasLength]
  | cons x xs ih => cases n <;> simp [hasLength, ih]

/-- The high field of two joined ones. -/
theorem append_high {m n : Nat} (x : BitVec m) (y : BitVec n) : (x ++ y).extractLsb' n m = x := by
  apply BitVec.eq_of_toNat_eq
  simp only [BitVec.extractLsb'_toNat, BitVec.toNat_append]
  rw [← Nat.shiftLeft_add_eq_or_of_lt y.isLt, Nat.shiftRight_eq_div_pow, Nat.shiftLeft_eq,
    Nat.add_comm, Nat.add_mul_div_right _ _ (Nat.two_pow_pos n), Nat.div_eq_of_lt y.isLt, Nat.zero_add,
    Nat.mod_eq_of_lt x.isLt]

/-- The low field of two joined ones. -/
theorem append_low {m n : Nat} (x : BitVec m) (y : BitVec n) : (x ++ y).extractLsb' 0 n = y := by
  apply BitVec.eq_of_toNat_eq
  simp only [BitVec.extractLsb'_toNat, BitVec.toNat_append, Nat.shiftRight_zero]
  rw [← Nat.shiftLeft_add_eq_or_of_lt y.isLt, Nat.shiftLeft_eq, Nat.add_comm, Nat.add_mul_mod_self_right,
    Nat.mod_eq_of_lt y.isLt]

/-- The value of two joined fields, the second one `n` bits wide. -/
theorem toNat_append_add {m n : Nat} (x : BitVec m) (y : BitVec n) : (x ++ y).toNat = x.toNat * 2 ^ n + y.toNat := by
  rw [BitVec.toNat_append, ← Nat.shiftLeft_add_eq_or_of_lt y.isLt, Nat.shiftLeft_eq]

/-- The value of a field of a word, by quotient and remainder. -/
theorem toNat_field (w : Word) (lo n : Nat) : (w.extractLsb' lo n).toNat = w.toNat / 2 ^ lo % 2 ^ n := by
  rw [BitVec.extractLsb'_toNat, Nat.shiftRight_eq_div_pow]

/-- The opcode is the word's high digit (R91). -/
theorem opField_toNat (w : Word) : (opField w).toNat = w.toNat / 2 ^ 28 := by
  have := w.isLt
  rw [opField, toNat_field]
  omega

/-- Which opcode a word has, told from its value. -/
theorem opField_eq_iff (w : Word) {n : Nat} (hn : n < 16) : opField w = BitVec.ofNat 4 n ↔ w.toNat / 2 ^ 28 = n := by
  rw [← BitVec.toNat_inj, opField_toNat, BitVec.toNat_ofNat]
  omega

/-- A field of a word is zero, told from its value. -/
theorem field_eq_zero_iff (w : Word) (lo n : Nat) : w.extractLsb' lo n = 0#n ↔ w.toNat / 2 ^ lo % 2 ^ n = 0 := by
  rw [← BitVec.toNat_inj, toNat_field]
  simp

/-- The port a word names, told from its value (R98). -/
theorem portField_eq (w : Word) : portField w =
    if w.toNat / 2 ^ 30 = 0 then some .cpu
    else if w.toNat / 2 ^ 30 = 1 then some .setup
    else if w.toNat / 2 ^ 30 = 2 then some .operator
    else none := by
  have := w.isLt
  have e : w.toNat / 2 ^ 30 % 2 ^ 2 = w.toNat / 2 ^ 30 := by omega
  simp only [portField, ← BitVec.toNat_inj, toNat_field, BitVec.toNat_ofNat]
  rw [e]

/-! The value of each encoded word, field by field. -/

theorem encode_mrd_toNat (a : Addr) : (encode (.mrd a)).word.toNat = a.toNat * 2 ^ 8 := by
  change (0x0#4 ++ 0#4 ++ a ++ 0#8 : BitVec (4 + 4 + 16 + 8)).toNat = _
  simp only [toNat_append_add, BitVec.toNat_ofNat]
  omega

theorem encode_mwr_toNat (a : Addr) (v : Byte) :
    (encode (.mwr a v)).word.toNat = 0x1 * 2 ^ 28 + a.toNat * 2 ^ 8 + v.toNat := by
  change (0x1#4 ++ 0#4 ++ a ++ v : BitVec (4 + 4 + 16 + 8)).toNat = _
  simp only [toNat_append_add, BitVec.toNat_ofNat]
  omega

theorem encode_iord_toNat (p : PortNum) : (encode (.iord p)).word.toNat = 0x2 * 2 ^ 28 + p.toNat * 2 ^ 8 := by
  change (0x2#4 ++ 0#4 ++ p ++ 0#8 : BitVec (4 + 4 + 16 + 8)).toNat = _
  simp only [toNat_append_add, BitVec.toNat_ofNat]
  omega

theorem encode_iowr_toNat (p : PortNum) (v : Byte) :
    (encode (.iowr p v)).word.toNat = 0x3 * 2 ^ 28 + p.toNat * 2 ^ 8 + v.toNat := by
  change (0x3#4 ++ 0#4 ++ p ++ v : BitVec (4 + 4 + 16 + 8)).toNat = _
  simp only [toNat_append_add, BitVec.toNat_ofNat]
  omega

theorem encode_install_toNat (w : WinIx) (d : DevIx) :
    (encode (.install w d)).word.toNat = 0x4 * 2 ^ 28 + w.toNat * 2 ^ 8 + d.toNat := by
  change (0x4#4 ++ 0#15 ++ w ++ 0#3 ++ d : BitVec (4 + 15 + 5 + 3 + 5)).toNat = _
  simp only [toNat_append_add, BitVec.toNat_ofNat]
  omega

theorem encode_load_toNat (d : DevIx) (o : Offset) (bs : List Byte) :
    (encode (.load d o bs)).word.toNat = 0x5 * 2 ^ 28 + d.toNat * 2 ^ 23 + o.toNat * 2 ^ 12 + bs.length % 2 ^ 12 := by
  change (0x5#4 ++ d ++ o ++ BitVec.ofNat 12 bs.length : BitVec (4 + 5 + 11 + 12)).toNat = _
  simp only [toNat_append_add, BitVec.toNat_ofNat]
  omega

theorem encode_line_toNat (bs : List Byte) :
    (encode (.line bs)).word.toNat = 0x8 * 2 ^ 28 + bs.length % 2 ^ 16 := by
  change (0x8#4 ++ 0#12 ++ BitVec.ofNat 16 bs.length : BitVec (4 + 12 + 16)).toNat = _
  simp only [toNat_append_add, BitVec.toNat_ofNat]
  omega

end Sys2Proof
end

