-- ==== Sys2Proof/Laws/Memory.lean ====
section
/-! SUPPORT. The byte store: read after write, and that every operation keeps the canonical form. -/

namespace Sys2Proof.Machine

/-- Read after write at the same key. -/
@[simp] theorem byteAt?_store_same (m : Memory) (k : Nat) (v : Byte) : (m.store k v).byteAt? k = some v := by
  induction m with
  | nil => simp [Memory.store, Memory.byteAt?]
  | cons c m ih =>
    obtain ⟨j, x⟩ := c
    simp only [Memory.store]
    split
    · simp [Memory.byteAt?]
    · split
      · simp [Memory.byteAt?]
      · simp only [Memory.byteAt?]
        rw [if_neg (by omega), ih]

/-- A write leaves every other key alone. -/
theorem byteAt?_store_other (m : Memory) {j k : Nat} (v : Byte) (h : j ≠ k) :
    (m.store k v).byteAt? j = m.byteAt? j := by
  induction m with
  | nil => simp [Memory.store, Memory.byteAt?, h.symm]
  | cons c m ih =>
    obtain ⟨i, x⟩ := c
    simp only [Memory.store]
    split
    · simp [Memory.byteAt?, h.symm]
    · split
      · rename_i _ hk
        simp [Memory.byteAt?, h.symm, ← hk]
      · simp only [Memory.byteAt?, ih]

/-- Writing the same byte again changes nothing. -/
@[simp] theorem store_store_same (m : Memory) (k : Nat) (v : Byte) : (m.store k v).store k v = m.store k v := by
  induction m with
  | nil => simp [Memory.store]
  | cons c m ih =>
    obtain ⟨j, x⟩ := c
    by_cases hlt : k < j
    · simp [Memory.store, hlt]
    · by_cases heq : k = j
      · simp [Memory.store, heq]
      · simp [Memory.store, hlt, heq, ih]

/-- The entries of a store after a write: the written one and old ones. -/
theorem mem_store {m : Memory} {k : Nat} {v : Byte} {c : Host.Cell} (h : c ∈ m.store k v) : c = (k, v) ∨ c ∈ m := by
  induction m with
  | nil => simpa [Memory.store] using h
  | cons e m ih =>
    obtain ⟨j, x⟩ := e
    simp only [Memory.store] at h
    split at h
    · simpa using h
    · split at h
      · rcases List.mem_cons.mp h with h | h
        · exact .inl h
        · exact .inr (List.mem_cons_of_mem _ h)
      · rcases List.mem_cons.mp h with h | h
        · exact .inr (h ▸ List.mem_cons_self)
        · exact (ih h).imp_right (List.mem_cons_of_mem _)

/-- A write keeps the canonical form. -/
theorem store_wf {m : Memory} (h : m.wf) (k : Nat) (v : Byte) : (m.store k v).wf := by
  induction m with
  | nil => simp [Memory.store]
  | cons e m ih =>
    obtain ⟨j, x⟩ := e
    obtain ⟨hj, hm⟩ := List.pairwise_cons.mp h
    simp only [Memory.store]
    split
    · refine List.pairwise_cons.mpr ⟨fun c hc => ?_, h⟩
      rcases List.mem_cons.mp hc with rfl | hc
      · assumption
      · have := hj c hc; simp only at *; omega
    · split
      · subst_vars
        exact List.pairwise_cons.mpr ⟨hj, hm⟩
      · refine List.pairwise_cons.mpr ⟨fun c hc => ?_, ih hm⟩
        rcases mem_store hc with rfl | hc
        · simp only; omega
        · exact hj c hc

/-- A bulk load keeps the canonical form. -/
theorem storeAll_wf {m : Memory} (h : m.wf) (k : Nat) (bs : List Byte) : (m.storeAll k bs).wf := by
  induction bs generalizing m k with
  | nil => exact h
  | cons b bs ih => exact ih (store_wf h k b) (k + 1)

/-- A key the loaded range does not cover keeps its byte. -/
theorem byteAt?_storeAll_outside (m : Memory) (bs : List Byte) {j k : Nat} (h : j < k ∨ k + bs.length ≤ j) :
    (m.storeAll k bs).byteAt? j = m.byteAt? j := by
  induction bs generalizing m k with
  | nil => rfl
  | cons b bs ih =>
    simp only [List.length_cons] at h
    rw [Memory.storeAll, ih _ (by omega), byteAt?_store_other m b (by omega)]

/-- Byte `i` of a bulk load is at key `k + i`. -/
theorem byteAt?_storeAll_inside (m : Memory) (bs : List Byte) (k i : Nat) (h : i < bs.length) :
    (m.storeAll k bs).byteAt? (k + i) = some bs[i] := by
  induction bs generalizing m k i with
  | nil => simp at h
  | cons b bs ih =>
    rw [Memory.storeAll]
    cases i with
    | zero => rw [byteAt?_storeAll_outside _ _ (by omega)]; simp
    | succ i =>
      rw [show k + (i + 1) = k + 1 + i by omega, ih _ (k + 1) i (by simpa using h)]
      simp

/-- The entries of a store after a bulk load: old ones and ones in the loaded range. -/
theorem mem_storeAll {m : Memory} {bs : List Byte} {k : Nat} {c : Host.Cell} (h : c ∈ m.storeAll k bs) :
    (k ≤ c.1 ∧ c.1 < k + bs.length) ∨ c ∈ m := by
  induction bs generalizing m k with
  | nil => exact .inr h
  | cons b bs ih =>
    simp only [List.length_cons]
    rcases ih h with h | h
    · exact .inl (by omega)
    · rcases mem_store h with rfl | h
      · exact .inl (by simp)
      · exact .inr h

/-- Two places of buffers have one key only if they are one place. -/
theorem cellKey_inj {d o e p : Nat} (ho : o < 2048) (hp : p < 2048) : cellKey d o = cellKey e p ↔ d = e ∧ o = p := by
  simp only [cellKey]; omega

/-- The device that owns a key. -/
theorem cellKey_div {d o : Nat} (ho : o < 2048) : cellKey d o / 2048 = d := by
  simp only [cellKey]; omega

end Sys2Proof.Machine
end

