-- ==== Sys2Proof/Laws/State.lean ====
section
/-! SUPPORT. One lemma per field per update of the state, so that no proof unfolds a record update. -/

namespace Sys2Proof.Machine

variable (s : State)

@[simp] theorem setPhase_cfg (p : Phase) : (s.setPhase p).cfg = s.cfg := rfl
@[simp] theorem setPhase_boot (p : Phase) : (s.setPhase p).boot = s.boot := rfl
@[simp] theorem setPhase_phase (p : Phase) : (s.setPhase p).phase = p := rfl
@[simp] theorem setPhase_wmap (p : Phase) : (s.setPhase p).wmap = s.wmap := rfl
@[simp] theorem setPhase_buf (p : Phase) : (s.setPhase p).buf = s.buf := rfl
@[simp] theorem setPhase_inq (p : Phase) : (s.setPhase p).inq = s.inq := rfl
@[simp] theorem setPhase_outw (p : Phase) : (s.setPhase p).outw = s.outw := rfl
@[simp] theorem setPhase_wait (p : Phase) : (s.setPhase p).wait = s.wait := rfl
@[simp] theorem setPhase_arrivals (p : Phase) : (s.setPhase p).arrivals = s.arrivals := rfl
@[simp] theorem setPhase_cRsp (p : Phase) : (s.setPhase p).cRsp = s.cRsp := rfl
@[simp] theorem setPhase_oRsp (p : Phase) : (s.setPhase p).oRsp = s.oRsp := rfl

@[simp] theorem setBuf_cfg (m : Memory) : (s.setBuf m).cfg = s.cfg := rfl
@[simp] theorem setBuf_boot (m : Memory) : (s.setBuf m).boot = s.boot := rfl
@[simp] theorem setBuf_phase (m : Memory) : (s.setBuf m).phase = s.phase := rfl
@[simp] theorem setBuf_wmap (m : Memory) : (s.setBuf m).wmap = s.wmap := rfl
@[simp] theorem setBuf_buf (m : Memory) : (s.setBuf m).buf = m := rfl
@[simp] theorem setBuf_inq (m : Memory) : (s.setBuf m).inq = s.inq := rfl
@[simp] theorem setBuf_outw (m : Memory) : (s.setBuf m).outw = s.outw := rfl
@[simp] theorem setBuf_wait (m : Memory) : (s.setBuf m).wait = s.wait := rfl
@[simp] theorem setBuf_arrivals (m : Memory) : (s.setBuf m).arrivals = s.arrivals := rfl
@[simp] theorem setBuf_cRsp (m : Memory) : (s.setBuf m).cRsp = s.cRsp := rfl
@[simp] theorem setBuf_oRsp (m : Memory) : (s.setBuf m).oRsp = s.oRsp := rfl

@[simp] theorem setInq_cfg (q : List Byte) : (s.setInq q).cfg = s.cfg := rfl
@[simp] theorem setInq_boot (q : List Byte) : (s.setInq q).boot = s.boot := rfl
@[simp] theorem setInq_phase (q : List Byte) : (s.setInq q).phase = s.phase := rfl
@[simp] theorem setInq_wmap (q : List Byte) : (s.setInq q).wmap = s.wmap := rfl
@[simp] theorem setInq_buf (q : List Byte) : (s.setInq q).buf = s.buf := rfl
@[simp] theorem setInq_inq (q : List Byte) : (s.setInq q).inq = q := rfl
@[simp] theorem setInq_outw (q : List Byte) : (s.setInq q).outw = s.outw := rfl
@[simp] theorem setInq_wait (q : List Byte) : (s.setInq q).wait = s.wait := rfl
@[simp] theorem setInq_arrivals (q : List Byte) : (s.setInq q).arrivals = s.arrivals := rfl
@[simp] theorem setInq_cRsp (q : List Byte) : (s.setInq q).cRsp = s.cRsp := rfl
@[simp] theorem setInq_oRsp (q : List Byte) : (s.setInq q).oRsp = s.oRsp := rfl

@[simp] theorem setOutw_cfg (q : List Byte) : (s.setOutw q).cfg = s.cfg := rfl
@[simp] theorem setOutw_boot (q : List Byte) : (s.setOutw q).boot = s.boot := rfl
@[simp] theorem setOutw_phase (q : List Byte) : (s.setOutw q).phase = s.phase := rfl
@[simp] theorem setOutw_wmap (q : List Byte) : (s.setOutw q).wmap = s.wmap := rfl
@[simp] theorem setOutw_buf (q : List Byte) : (s.setOutw q).buf = s.buf := rfl
@[simp] theorem setOutw_inq (q : List Byte) : (s.setOutw q).inq = s.inq := rfl
@[simp] theorem setOutw_outw (q : List Byte) : (s.setOutw q).outw = q := rfl
@[simp] theorem setOutw_wait (q : List Byte) : (s.setOutw q).wait = s.wait := rfl
@[simp] theorem setOutw_arrivals (q : List Byte) : (s.setOutw q).arrivals = s.arrivals := rfl
@[simp] theorem setOutw_cRsp (q : List Byte) : (s.setOutw q).cRsp = s.cRsp := rfl
@[simp] theorem setOutw_oRsp (q : List Byte) : (s.setOutw q).oRsp = s.oRsp := rfl

@[simp] theorem setWait_cfg (b : Bool) : (s.setWait b).cfg = s.cfg := rfl
@[simp] theorem setWait_boot (b : Bool) : (s.setWait b).boot = s.boot := rfl
@[simp] theorem setWait_phase (b : Bool) : (s.setWait b).phase = s.phase := rfl
@[simp] theorem setWait_wmap (b : Bool) : (s.setWait b).wmap = s.wmap := rfl
@[simp] theorem setWait_buf (b : Bool) : (s.setWait b).buf = s.buf := rfl
@[simp] theorem setWait_inq (b : Bool) : (s.setWait b).inq = s.inq := rfl
@[simp] theorem setWait_outw (b : Bool) : (s.setWait b).outw = s.outw := rfl
@[simp] theorem setWait_wait (b : Bool) : (s.setWait b).wait = b := rfl
@[simp] theorem setWait_arrivals (b : Bool) : (s.setWait b).arrivals = s.arrivals := rfl
@[simp] theorem setWait_cRsp (b : Bool) : (s.setWait b).cRsp = s.cRsp := rfl
@[simp] theorem setWait_oRsp (b : Bool) : (s.setWait b).oRsp = s.oRsp := rfl

@[simp] theorem setArrivals_cfg (ts : List Transaction) : (s.setArrivals ts).cfg = s.cfg := rfl
@[simp] theorem setArrivals_boot (ts : List Transaction) : (s.setArrivals ts).boot = s.boot := rfl
@[simp] theorem setArrivals_phase (ts : List Transaction) : (s.setArrivals ts).phase = s.phase := rfl
@[simp] theorem setArrivals_wmap (ts : List Transaction) : (s.setArrivals ts).wmap = s.wmap := rfl
@[simp] theorem setArrivals_buf (ts : List Transaction) : (s.setArrivals ts).buf = s.buf := rfl
@[simp] theorem setArrivals_inq (ts : List Transaction) : (s.setArrivals ts).inq = s.inq := rfl
@[simp] theorem setArrivals_outw (ts : List Transaction) : (s.setArrivals ts).outw = s.outw := rfl
@[simp] theorem setArrivals_wait (ts : List Transaction) : (s.setArrivals ts).wait = s.wait := rfl
@[simp] theorem setArrivals_arrivals (ts : List Transaction) : (s.setArrivals ts).arrivals = ts := rfl
@[simp] theorem setArrivals_cRsp (ts : List Transaction) : (s.setArrivals ts).cRsp = s.cRsp := rfl
@[simp] theorem setArrivals_oRsp (ts : List Transaction) : (s.setArrivals ts).oRsp = s.oRsp := rfl

@[simp] theorem setWmap_cfg (w : WinIx) (d : DevIx) : (s.setWmap w d).cfg = s.cfg := rfl
@[simp] theorem setWmap_boot (w : WinIx) (d : DevIx) : (s.setWmap w d).boot = s.boot := rfl
@[simp] theorem setWmap_phase (w : WinIx) (d : DevIx) : (s.setWmap w d).phase = s.phase := rfl
@[simp] theorem setWmap_wmap (w : WinIx) (d : DevIx) : (s.setWmap w d).wmap = s.wmap.set w.toNat d w.isLt := rfl
@[simp] theorem setWmap_buf (w : WinIx) (d : DevIx) : (s.setWmap w d).buf = s.buf := rfl
@[simp] theorem setWmap_inq (w : WinIx) (d : DevIx) : (s.setWmap w d).inq = s.inq := rfl
@[simp] theorem setWmap_outw (w : WinIx) (d : DevIx) : (s.setWmap w d).outw = s.outw := rfl
@[simp] theorem setWmap_wait (w : WinIx) (d : DevIx) : (s.setWmap w d).wait = s.wait := rfl
@[simp] theorem setWmap_arrivals (w : WinIx) (d : DevIx) : (s.setWmap w d).arrivals = s.arrivals := rfl
@[simp] theorem setWmap_cRsp (w : WinIx) (d : DevIx) : (s.setWmap w d).cRsp = s.cRsp := rfl
@[simp] theorem setWmap_oRsp (w : WinIx) (d : DevIx) : (s.setWmap w d).oRsp = s.oRsp := rfl

@[simp] theorem respondCpu_cfg (v : Byte) : (s.respondCpu v).cfg = s.cfg := rfl
@[simp] theorem respondCpu_boot (v : Byte) : (s.respondCpu v).boot = s.boot := rfl
@[simp] theorem respondCpu_phase (v : Byte) : (s.respondCpu v).phase = s.phase := rfl
@[simp] theorem respondCpu_wmap (v : Byte) : (s.respondCpu v).wmap = s.wmap := rfl
@[simp] theorem respondCpu_buf (v : Byte) : (s.respondCpu v).buf = s.buf := rfl
@[simp] theorem respondCpu_inq (v : Byte) : (s.respondCpu v).inq = s.inq := rfl
@[simp] theorem respondCpu_outw (v : Byte) : (s.respondCpu v).outw = s.outw := rfl
@[simp] theorem respondCpu_wait (v : Byte) : (s.respondCpu v).wait = s.wait := rfl
@[simp] theorem respondCpu_arrivals (v : Byte) : (s.respondCpu v).arrivals = s.arrivals := rfl
@[simp] theorem respondCpu_cRsp (v : Byte) : (s.respondCpu v).cRsp = s.cRsp ++ [v] := rfl
@[simp] theorem respondCpu_oRsp (v : Byte) : (s.respondCpu v).oRsp = s.oRsp := rfl

@[simp] theorem respondOperator_cfg (bs : List Byte) : (s.respondOperator bs).cfg = s.cfg := rfl
@[simp] theorem respondOperator_boot (bs : List Byte) : (s.respondOperator bs).boot = s.boot := rfl
@[simp] theorem respondOperator_phase (bs : List Byte) : (s.respondOperator bs).phase = s.phase := rfl
@[simp] theorem respondOperator_wmap (bs : List Byte) : (s.respondOperator bs).wmap = s.wmap := rfl
@[simp] theorem respondOperator_buf (bs : List Byte) : (s.respondOperator bs).buf = s.buf := rfl
@[simp] theorem respondOperator_inq (bs : List Byte) : (s.respondOperator bs).inq = s.inq := rfl
@[simp] theorem respondOperator_outw (bs : List Byte) : (s.respondOperator bs).outw = s.outw := rfl
@[simp] theorem respondOperator_wait (bs : List Byte) : (s.respondOperator bs).wait = s.wait := rfl
@[simp] theorem respondOperator_arrivals (bs : List Byte) : (s.respondOperator bs).arrivals = s.arrivals := rfl
@[simp] theorem respondOperator_cRsp (bs : List Byte) : (s.respondOperator bs).cRsp = s.cRsp := rfl
@[simp] theorem respondOperator_oRsp (bs : List Byte) : (s.respondOperator bs).oRsp = s.oRsp ++ [bs] := rfl

/-- The window map after `WMAP[w] <- d`, entry by entry. -/
@[simp] theorem setWmap_wmapAt (w x : WinIx) (d : DevIx) :
    (s.setWmap w d).wmapAt x = if x = w then d else s.wmapAt x := by
  simp only [State.wmapAt, State.setWmap, Vector.getElem_set, eq_comm (a := w.toNat), BitVec.toNat_inj]

theorem wmapAt_of_wmap_eq {s t : State} (h : t.wmap = s.wmap) (w : WinIx) : t.wmapAt w = s.wmapAt w := by
  simp only [State.wmapAt, h]

@[simp] theorem setPhase_wmapAt (p : Phase) (w : WinIx) : (s.setPhase p).wmapAt w = s.wmapAt w := rfl
@[simp] theorem setBuf_wmapAt (m : Memory) (w : WinIx) : (s.setBuf m).wmapAt w = s.wmapAt w := rfl
@[simp] theorem setInq_wmapAt (q : List Byte) (w : WinIx) : (s.setInq q).wmapAt w = s.wmapAt w := rfl
@[simp] theorem setOutw_wmapAt (q : List Byte) (w : WinIx) : (s.setOutw q).wmapAt w = s.wmapAt w := rfl
@[simp] theorem setWait_wmapAt (b : Bool) (w : WinIx) : (s.setWait b).wmapAt w = s.wmapAt w := rfl
@[simp] theorem setArrivals_wmapAt (ts : List Transaction) (w : WinIx) : (s.setArrivals ts).wmapAt w = s.wmapAt w := rfl
@[simp] theorem respondCpu_wmapAt (v : Byte) (w : WinIx) : (s.respondCpu v).wmapAt w = s.wmapAt w := rfl
@[simp] theorem respondOperator_wmapAt (bs : List Byte) (w : WinIx) : (s.respondOperator bs).wmapAt w = s.wmapAt w := rfl

/-- Every window of a fresh block is mapped to device 0 (R46). -/
@[simp] theorem resetWith_wmapAt (c : Config) (boot : Nat) (w : WinIx) : (State.resetWith c boot).wmapAt w = 0#5 := by
  simp [State.wmapAt, State.resetWith]

end Sys2Proof.Machine
end

