-- ==== Sys2Proof/Laws/Ops.lean ====
section
/-! SUPPORT. What each shared operation can do, said once. -/

namespace Sys2Proof.Machine

variable (s : State)

/-- A read sees the configuration, the reset number and the store, and nothing else of the state. -/
theorem devRead_congr {s t : State} (hc : t.cfg = s.cfg) (hb : t.boot = s.boot) (hm : t.buf = s.buf) (d o : Nat) :
    devRead t d o = devRead s d o := by
  simp only [devRead, hc, hb, hm]

/-- A device write replaces the store and nothing else, and only for a `RW` device. -/
theorem devWrite_cases (d o : Nat) (v : Byte) :
    (tagOf s.cfg d = .rw ∧ devWrite s d o v = s.setBuf (s.buf.store (cellKey d o) v)) ∨
      (tagOf s.cfg d ≠ .rw ∧ devWrite s d o v = s) := by
  cases h : tagOf s.cfg d <;> simp [devWrite, h, writesPass]

/-- A device load replaces the store and nothing else, and only for a buffered device. -/
theorem devLoad_cases (d origin : Nat) (bs : List Byte) :
    (buffered (tagOf s.cfg d) = true ∧ devLoad s d origin bs = s.setBuf (s.buf.storeAll (cellKey d origin) bs)) ∨
      (buffered (tagOf s.cfg d) = false ∧ devLoad s d origin bs = s) := by
  cases h : buffered (tagOf s.cfg d) <;> simp [devLoad, h]

/-- A bus write changes the store at most. -/
theorem memWrite_eq_setBuf (addr : Int) (v : Byte) : ∃ m, memWrite s addr v = s.setBuf m := by
  simp only [memWrite]
  rcases devWrite_cases s (deviceAt s (reduceAddr addr)) (offsetOf (reduceAddr addr)).toNat v with ⟨-, h⟩ | ⟨-, h⟩
  · exact ⟨_, h⟩
  · exact ⟨s.buf, h⟩

/-- A device load changes the store at most. -/
theorem devLoad_eq_setBuf (d origin : Nat) (bs : List Byte) : ∃ m, devLoad s d origin bs = s.setBuf m := by
  rcases devLoad_cases s d origin bs with ⟨-, h⟩ | ⟨-, h⟩
  · exact ⟨_, h⟩
  · exact ⟨s.buf, h⟩

/-- A console write changes the output window and nothing else. -/
theorem consolePut_eq_setOutw (v : Byte) :
    consolePut s v = s.setOutw (if isControl v then [] else lastN (s.outw ++ [v]) s.cfg.dispN) := by
  simp only [consolePut]
  split <;> rfl

/-- The refilled queue is never empty (R173). -/
theorem refill_ne_nil (c : Config) (bs : List Byte) : refill c bs ≠ [] := by
  simp only [refill]
  split <;> simp_all

/-- The refilled queue as its front and its rest. -/
theorem refill_eq_cons (c : Config) (bs : List Byte) :
    refill c bs = (bs.head?.getD c.placeholder) :: bs.tail := by
  cases bs <;> simp [refill]

/-- The reduction of an address that is in range already is the identity (R100). -/
@[simp] theorem reduceAddr_toNat (a : Addr) : reduceAddr (a.toNat : Int) = a := by
  have h : ((a.toNat : Int) % 65536).toNat = a.toNat := by have := a.isLt; omega
  simp [reduceAddr, h]

/-- The window of an address, as a quotient (R63). -/
theorem windowOf_toNat (a : Addr) : (windowOf a).toNat = a.toNat / 2048 := by
  simp only [windowOf, BitVec.extractLsb'_toNat, Nat.shiftRight_eq_div_pow]
  have := a.isLt
  omega

/-- The offset of an address, as a remainder (R63). -/
theorem offsetOf_toNat (a : Addr) : (offsetOf a).toNat = a.toNat % 2048 := by
  simp only [offsetOf, BitVec.extractLsb'_toNat, Nat.shiftRight_zero]

/-- `last_n` is never longer than its bound (R13). -/
theorem length_lastN_le (q : List Byte) (n : Nat) : (lastN q n).length ≤ n := by
  simp only [lastN, List.length_drop]; omega

/-- `last_n` of a sequence that fits is the sequence (R13). -/
theorem lastN_of_le {q : List Byte} {n : Nat} (h : q.length ≤ n) : lastN q n = q := by
  simp [lastN, Nat.sub_eq_zero_of_le h]

/-- `last_n` keeps elements only (R13). -/
theorem mem_of_mem_lastN {q : List Byte} {n : Nat} {b : Byte} (h : b ∈ lastN q n) : b ∈ q := List.mem_of_mem_drop h

/-- Cutting to the last `n` before an append that is cut to the last `n` loses nothing. -/
theorem lastN_lastN_append (q r : List Byte) (n : Nat) : lastN (lastN q n ++ r) n = lastN (q ++ r) n := by
  simp only [lastN, List.length_append, List.length_drop, List.drop_append, List.drop_drop]
  congr 1 <;> congr 1 <;> omega

/-- A reduced address is the remainder by 65536 (R62). -/
theorem reduceAddr_toNat_int (a : Int) : ((reduceAddr a).toNat : Int) = a % 65536 := by
  simp only [reduceAddr, BitVec.toNat_ofNat]
  omega

/-- Reducing twice is reducing once (R62). -/
@[simp] theorem reduceAddr_emod (a : Int) : reduceAddr (a % 65536) = reduceAddr a := by
  simp [reduceAddr]

end Sys2Proof.Machine
end

