-- ==== Sys2Proof/Laws/Meanings.lean ====
section
/-! SUPPORT. One inversion lemma per meaning: if it answers a next state, what that state is. The first disjunct of
each operation that can hold is the hold. -/

namespace Sys2Proof.Machine

variable {s t : State}

theorem execMrd_cases {addr : Addr} (h : execMrd addr s = .next t) :
    (s.wait = true ∧ t = s.setArrivals (encode (.mrd addr) :: s.arrivals)) ∨
      (s.wait = false ∧ t = s.respondCpu (memRead s addr.toNat)) := by
  cases hw : s.wait <;> simp [execMrd, hw, hold] at h <;> simp [h]

theorem execMwr_cases {addr : Addr} {value : Byte} (h : execMwr addr value s = .next t) :
    (s.wait = true ∧ t = s.setArrivals (encode (.mwr addr value) :: s.arrivals)) ∨
      (s.wait = false ∧ t = memWrite s addr.toNat value) := by
  cases hw : s.wait <;> simp [execMwr, hw, hold] at h <;> simp [h]

theorem execInstall_cases {w : WinIx} {d : DevIx} (h : execInstall w d s = .next t) :
    (s.wait = true ∧ t = s.setArrivals (encode (.install w d) :: s.arrivals)) ∨
      (s.wait = false ∧ s.phase = .setup ∧ deviceExists s.cfg d.toNat = true ∧ t = s.setWmap w d) := by
  cases hw : s.wait <;> cases hp : s.phase <;> cases hd : deviceExists s.cfg d.toNat <;>
    simp [execInstall, hw, hp, hd, hold] at h <;> simp [h]

theorem execLoad_cases {d : DevIx} {origin : Offset} {bytes : List Byte} (h : execLoad d origin bytes s = .next t) :
    (s.wait = true ∧ t = s.setArrivals (encode (.load d origin bytes) :: s.arrivals)) ∨
      (s.wait = false ∧ s.phase = .setup ∧ deviceExists s.cfg d.toNat = true ∧
        loadFits origin.toNat bytes.length = true ∧ t = devLoad s d.toNat origin.toNat bytes) := by
  cases hw : s.wait <;> cases hp : s.phase <;> cases hd : deviceExists s.cfg d.toNat <;>
    cases hl : loadFits origin.toNat bytes.length <;> simp [execLoad, hw, hp, hd, hl, hold] at h <;> simp [h]

theorem execStart_cases (h : execStart s = .next t) :
    (s.wait = true ∧ t = s.setArrivals (encode .start :: s.arrivals)) ∨
      (s.wait = false ∧ s.phase = .setup ∧ t = s.setPhase .run) := by
  cases hw : s.wait <;> cases hp : s.phase <;> simp [execStart, hw, hp, hold] at h <;> simp [h]

theorem execIord_cases {port : PortNum} (h : execIord port s = .next t) :
    (s.wait = true ∧ t = s.setArrivals (encode (.iord port) :: s.arrivals)) ∨
      (s.wait = false ∧ s.inq = [] ∧ t = s.setWait true) ∨
        (s.wait = false ∧ ∃ c rest, s.inq = c :: rest ∧ t = (s.setInq rest).respondCpu c) := by
  cases hw : s.wait <;> simp only [execIord, hw, hold] at h <;> simp at h
  · cases hq : s.inq <;> simp only [hq] at h <;> simp at h <;> simp [h]
  · simp [h]

theorem execIowr_cases {port : PortNum} {value : Byte} (h : execIowr port value s = .next t) :
    (s.wait = true ∧ t = s.setArrivals (encode (.iowr port value) :: s.arrivals)) ∨
      (s.wait = false ∧ t = consolePut s value) := by
  cases hw : s.wait <;> simp [execIowr, hw, hold] at h <;> simp [h]

theorem execLine_cases {bytes : List Byte} (h : execLine bytes s = .next t) :
    s.wait = true ∧ lineFits s.cfg bytes.length = true ∧ t = completeRead s (refill s.cfg bytes) := by
  cases hw : s.wait <;> simp [execLine, hw] at h
  split at h
  · cases h
  · simp_all

theorem execDisp_cases (h : execDisp s = .next t) : t = s.respondOperator s.outw := by
  simpa [execDisp] using h.symm

/-- The completed read takes the front of a queue that is not empty. -/
theorem completeRead_cons (s : State) (c : Byte) (rest : List Byte) :
    completeRead s (c :: rest) = ((s.setInq rest).setWait false).respondCpu c := rfl

/-- No operation writes the configuration or the reset number (R40, R104). -/
theorem exec_cfg_boot {i : Instr} (h : exec i s = .next t) : t.cfg = s.cfg ∧ t.boot = s.boot := by
  cases i with
  | mrd addr => rcases execMrd_cases h with ⟨-, rfl⟩ | ⟨-, rfl⟩ <;> simp
  | mwr addr value =>
    rcases execMwr_cases h with ⟨-, rfl⟩ | ⟨-, rfl⟩
    · simp
    · obtain ⟨m, hm⟩ := memWrite_eq_setBuf s addr.toNat value
      simp [hm]
  | iord port => rcases execIord_cases h with ⟨-, rfl⟩ | ⟨-, -, rfl⟩ | ⟨-, c, rest, -, rfl⟩ <;> simp
  | iowr port value => rcases execIowr_cases h with ⟨-, rfl⟩ | ⟨-, rfl⟩ <;> simp [consolePut_eq_setOutw]
  | install w d => rcases execInstall_cases h with ⟨-, rfl⟩ | ⟨-, -, -, rfl⟩ <;> simp
  | load d origin bytes =>
    rcases execLoad_cases h with ⟨-, rfl⟩ | ⟨-, -, -, -, rfl⟩
    · simp
    · obtain ⟨m, hm⟩ := devLoad_eq_setBuf s d.toNat origin.toNat bytes
      simp [hm]
  | start => rcases execStart_cases h with ⟨-, rfl⟩ | ⟨-, -, rfl⟩ <;> simp
  | line bytes =>
    obtain ⟨-, -, rfl⟩ := execLine_cases h
    simp [refill_eq_cons, completeRead_cons]
  | disp => obtain rfl := execDisp_cases h; simp

end Sys2Proof.Machine
end

