-- ==== Sys2Proof/Laws/PerInstr.lean ====
section
/-! SUPPORT. The per-instruction families of LAWS.json. TableRow: the encoded word of every operation holds the fixed
bits of its row of spec/opcode_table.json, on the port the row names (R97, R98). -/

namespace Sys2Proof.Laws.TableRow

/-- The fixed bits of the row, as the table lists them: highest bit, lowest bit, value. -/
def fixedBits : Instr → List (Nat × Nat × Nat)
  | .mrd _ => [(7, 0, 0), (31, 24, 0)]
  | .mwr _ _ => [(31, 24, 16)]
  | .iord _ => [(7, 0, 0), (31, 24, 32)]
  | .iowr _ _ => [(31, 24, 48)]
  | .install _ _ => [(7, 5, 0), (31, 13, 131072)]
  | .load _ _ _ => [(31, 28, 5)]
  | .start => [(31, 0, 1610612736)]
  | .line _ => [(31, 16, 32768)]
  | .disp => [(31, 0, 2415919104)]

/-- The row's port. -/
def rowPort : Instr → Port
  | .mrd _ => .cpu
  | .mwr _ _ => .cpu
  | .iord _ => .cpu
  | .iowr _ _ => .cpu
  | .install _ _ => .setup
  | .load _ _ _ => .setup
  | .start => .setup
  | .line _ => .operator
  | .disp => .operator

def Statement (i : Instr) : Prop :=
  (∀ f ∈ fixedBits i, (encode i).word.toNat / 2 ^ f.2.1 % 2 ^ (f.1 + 1 - f.2.1) = f.2.2) ∧ (encode i).port = rowPort i

theorem mrd (addr : Addr) : Statement (.mrd addr) := by
  refine ⟨?_, rfl⟩
  have := addr.isLt
  simp only [fixedBits, List.forall_mem_cons, encode_mrd_toNat]
  exact ⟨by omega, by omega, by simp⟩

theorem mwr (addr : Addr) (value : Byte) : Statement (.mwr addr value) := by
  refine ⟨?_, rfl⟩
  have := addr.isLt
  have := value.isLt
  simp only [fixedBits, List.forall_mem_cons, encode_mwr_toNat]
  exact ⟨by omega, by simp⟩

theorem iord (port : PortNum) : Statement (.iord port) := by
  refine ⟨?_, rfl⟩
  have := port.isLt
  simp only [fixedBits, List.forall_mem_cons, encode_iord_toNat]
  exact ⟨by omega, by omega, by simp⟩

theorem iowr (port : PortNum) (value : Byte) : Statement (.iowr port value) := by
  refine ⟨?_, rfl⟩
  have := port.isLt
  have := value.isLt
  simp only [fixedBits, List.forall_mem_cons, encode_iowr_toNat]
  exact ⟨by omega, by simp⟩

theorem install (w : WinIx) (d : DevIx) : Statement (.install w d) := by
  refine ⟨?_, rfl⟩
  have := w.isLt
  have := d.isLt
  simp only [fixedBits, List.forall_mem_cons, encode_install_toNat]
  exact ⟨by omega, by omega, by simp⟩

theorem load (d : DevIx) (origin : Offset) (bytes : List Byte) : Statement (.load d origin bytes) := by
  refine ⟨?_, rfl⟩
  have := d.isLt
  have := origin.isLt
  simp only [fixedBits, List.forall_mem_cons, encode_load_toNat]
  exact ⟨by omega, by simp⟩

theorem start : Statement .start := ⟨by decide, rfl⟩

theorem line (bytes : List Byte) : Statement (.line bytes) := by
  refine ⟨?_, rfl⟩
  simp only [fixedBits, List.forall_mem_cons, encode_line_toNat]
  exact ⟨by omega, by simp⟩

theorem disp : Statement .disp := ⟨by decide, rfl⟩

end Sys2Proof.Laws.TableRow
end

