-- ==== Sys2Proof/Laws/Run.lean ====
section
/-! SUPPORT. What the moves of the outside agents do, and the induction over a run. -/

namespace Sys2Proof.Machine
variable {s t u : State}

/-- A transaction that an agent may present arrives last, and nothing else changes. -/
theorem present_eq_some {x : Transaction} (h : s.present x = some t) :
    mayPresent s x = true ∧ t = { s with arrivals := s.arrivals ++ [x] } := by
  unfold State.present at h
  split at h
  · exact ⟨‹_›, (Option.some.inj h).symm⟩
  · cases h

/-- Collecting a response byte changes nothing but what is left to collect. -/
theorem takeCpuResponse_eq_some {v : Byte} (h : takeCpuResponse s = some (v, t)) :
    s.cRsp = v :: t.cRsp ∧ t = { s with cRsp := t.cRsp } := by
  unfold takeCpuResponse at h
  split at h
  · cases h
  · next w rest hs =>
    cases h
    exact ⟨hs, rfl⟩

/-- Collecting a display response changes nothing but what is left to collect. -/
theorem takeDisplay_eq_some {d : List Byte} (h : takeDisplay s = some (d, t)) :
    s.oRsp = d :: t.oRsp ∧ t = { s with oRsp := t.oRsp } := by
  unfold takeDisplay at h
  split at h
  · cases h
  · next w rest hs =>
    cases h
    exact ⟨hs, rfl⟩

/-- A relation that is reflexive and that every step and every move of an agent extends holds along a run. -/
theorem run_induction {P : State → State → Prop} (hrefl : ∀ s, P s s)
    (hstep : ∀ s t u, P s t → step t = .next u → P s u)
    (hpresent : ∀ s t x, P s t → mayPresent t x = true → P s { t with arrivals := t.arrivals ++ [x] })
    (htake : ∀ s t c o, P s t → P s { t with cRsp := c, oRsp := o }) (h : Run s t) : P s t := by
  induction h with
  | refl => exact hrefl _
  | step _ h ih => exact hstep _ _ _ ih h
  | present _ h ih =>
    obtain ⟨hm, rfl⟩ := present_eq_some h
    exact hpresent _ _ _ ih hm
  | @takeCpu t _ _ _ h ih =>
    rw [(takeCpuResponse_eq_some h).2]
    exact htake _ _ _ t.oRsp ih
  | @takeDisplay t _ _ _ h ih =>
    rw [(takeDisplay_eq_some h).2]
    exact htake _ _ t.cRsp _ ih

end Sys2Proof.Machine
end

