-- ==== Sys2Proof/Laws/Script.lean ====
section
/-! SUPPORT. Operations executed one after another. -/

namespace Sys2Proof.Machine

@[simp] theorem execAll_nil (s : State) : execAll [] s = .next s := rfl

/-- The first operation completes and the rest go on from there. -/
theorem execAll_cons_of_next {i : Instr} {s t : State} (is : List Instr) (h : exec i s = .next t) :
    execAll (i :: is) s = execAll is t := by
  rw [execAll, h]

/-- Two lists in turn, the first of which completes. -/
theorem execAll_append_of_next {is : List Instr} (js : List Instr) {s t : State} (h : execAll is s = .next t) :
    execAll (is ++ js) s = execAll js t := by
  induction is generalizing s with
  | nil =>
    cases h
    rfl
  | cons i is ih =>
    simp only [List.cons_append, execAll] at h ⊢
    split at h
    · exact ih h
    · cases h
    · cases h

/-- Operations that each complete from every state satisfying `P`, and keep it, complete one after another. -/
theorem execAll_next_of_each {P : State → Prop} {is : List Instr}
    (h : ∀ i ∈ is, ∀ s, P s → ∃ t, exec i s = .next t ∧ P t) {s : State} (hs : P s) :
    ∃ t, execAll is s = .next t ∧ P t := by
  induction is generalizing s with
  | nil => exact ⟨s, rfl, hs⟩
  | cons i is ih =>
    obtain ⟨t, ht, hp⟩ := h i (by simp) s hs
    rw [execAll_cons_of_next is ht]
    exact ih (fun j hj => h j (by simp [hj])) hp

end Sys2Proof.Machine
end

