-- ==== Sys2Proof/Laws/Step.lean ====
section
/-! SUPPORT. What taking up a transaction and one step can do. -/

namespace Sys2Proof.Machine

/-- With no read suspended the oldest transaction is taken up (R76). -/
@[simp] theorem takeUp_cons_of_not_wait (t : Transaction) (ts : List Transaction) :
    takeUp false [] (t :: ts) = some (t, ts) := by
  simp [takeUp, holding]

/-- A transaction that does not hold is taken up when its port is free. -/
theorem takeUp_cons_of_not_holding {wait : Bool} {busy : List Port} {t : Transaction} (ts : List Transaction)
    (hb : t.port ∉ busy) (hh : holding wait t = false) : takeUp wait busy (t :: ts) = some (t, ts) := by
  simp [takeUp, hb, hh]

/-- A holding transaction is passed over, its port busy from then on (R90, R204). -/
theorem takeUp_cons_of_holding {wait : Bool} {busy : List Port} {t : Transaction} (ts : List Transaction)
    (hh : holding wait t = true) :
    takeUp wait busy (t :: ts) = (takeUp wait (t.port :: busy) ts).map fun p => (p.1, t :: p.2) := by
  simp only [takeUp, hh, Bool.or_true, if_true]
  cases takeUp wait (t.port :: busy) ts <;> rfl

/-- What is taken up had arrived and does not hold, and what stays pending had arrived too, in the same order. -/
theorem takeUp_some {wait : Bool} {busy : List Port} {ts rest : List Transaction} {t : Transaction}
    (h : takeUp wait busy ts = some (t, rest)) :
    t ∈ ts ∧ holding wait t = false ∧ rest.Sublist ts ∧ ts.Perm (t :: rest) := by
  induction ts generalizing busy rest with
  | nil => simp [takeUp] at h
  | cons u us ih =>
    simp only [takeUp] at h
    split at h
    · split at h
      · rename_i v r hv
        simp only [Option.some.injEq, Prod.mk.injEq] at h
        obtain ⟨rfl, rfl⟩ := h
        obtain ⟨hm, hh, hs, hp⟩ := ih hv
        exact ⟨List.mem_cons_of_mem _ hm, hh, hs.cons_cons u, (hp.cons u).trans (.swap _ _ _)⟩
      · cases h
    · rename_i hc
      simp only [Option.some.injEq, Prod.mk.injEq] at h
      obtain ⟨rfl, rfl⟩ := h
      simp only [Bool.or_eq_true, not_or, Bool.not_eq_true] at hc
      exact ⟨List.mem_cons_self, hc.2, List.sublist_cons_self _ _, List.Perm.refl _⟩

/-- Everything a step that answers a next state can be: nothing was taken up and nothing changed, or one pending
transaction that spells an operation and does not hold was executed. -/
theorem step_cases {s t : State} (h : step s = .next t) :
    s.cfg.wellFormed = true ∧
      (t = s ∨
        ∃ x rest i, takeUp s.wait [] s.arrivals = some (x, rest) ∧ decode x = .op i ∧
          exec i (s.setArrivals rest) = .next t) := by
  simp only [step, fetch] at h
  cases hc : s.cfg.wellFormed
  · simp [hc] at h
  · refine ⟨rfl, ?_⟩
    cases hu : takeUp s.wait [] s.arrivals with
    | none => simp [hc, hu] at h; exact .inl h.symm
    | some p =>
      obtain ⟨x, rest⟩ := p
      cases hd : decode x with
      | op i =>
        simp [hc, hu, hd] at h
        exact .inr ⟨x, rest, i, rfl, hd, h⟩
      | bad r => simp [hc, hu, hd] at h

/-- An operation taken up while a read is suspended is `LINE` or `DISP` (R204). -/
theorem not_holdsInWait_of_takeUp {ts rest : List Transaction} {x : Transaction} {i : Instr}
    (h : takeUp true [] ts = some (x, rest)) (hd : decode x = .op i) : holdsInWait i = false := by
  have := (takeUp_some h).2.1
  simpa [holding, hd] using this

/-- A property of states that every executed operation and the taking up of a transaction keep is kept by a step. -/
theorem step_induction {P : State → State → Prop} (hrefl : ∀ s, P s s)
    (hexec : ∀ s rest i t, exec i (s.setArrivals rest) = .next t → P s t) {s t : State} (h : step s = .next t) :
    P s t := by
  rcases (step_cases h).2 with rfl | ⟨x, rest, i, -, -, he⟩
  · exact hrefl t
  · exact hexec s rest i t he

end Sys2Proof.Machine
end

