-- ==== Sys2Proof/Tests/Slice0.lean ====
section
/-! SUPPORT. The model's own tests: the well-formedness smoke, words written out bit by bit from the formats of R92 to
R96, at most two one-step tests per operation with the expected value of a vector of spec/95_test_vectors.md, and a
named witness for every statement that has hypotheses. -/

namespace Sys2Proof.Tests
open Sys2Proof.Machine Sys2Proof.Claims

/-! Helpers. -/

/-- The reference configuration with its map, in `SETUP` (R10). -/
def refmap : State := (State.reset.setWmap 0#5 1#5).setWmap 1#5 2#5

/-- The same in `RUN`. -/
def running : State := refmap.setPhase .run

/-- The same with a read suspended. -/
def waiting : State := refmap.setWait true

/-- A view of the next state of an outcome. -/
def seen {α : Type} (f : State → α) : Host.Outcome State Fault Refusal → Option α
  | .next t => some (f t)
  | .fault _ => none
  | .refused _ => none

/-- The reason of a refusal. -/
def reason : Host.Outcome State Fault Refusal → Option Refusal
  | .next _ => none
  | .fault _ => none
  | .refused r => some r

/-- What a word on a port decodes to. -/
def dec (p : Port) (w : Word) (payload : List Byte) : Decoded := decode ⟨p, w, payload⟩

/-! Well-formedness: each check refuses an ill-formed term. -/

theorem test_wf_load_too_long : (Instr.load 0#5 0#11 (List.replicate 4096 0#8)).wellFormed = false := by
  simp only [Instr.wellFormed, List.length_replicate]
  decide

theorem test_wf_line_too_long : (Instr.line (List.replicate 65536 0#8)).wellFormed = false := by
  simp only [Instr.wellFormed, List.length_replicate]
  decide

theorem test_wf_config_33_devices :
    ({ Config.reference with tags := List.replicate 32 .rw } : Config).wellFormed = false := by decide

theorem test_wf_config_no_window : ({ Config.reference with dispN := 0 } : Config).wellFormed = false := by decide

theorem test_wf_config_no_line : ({ Config.reference with lineMax := some 0 } : Config).wellFormed = false := by decide

theorem test_wf_config_unbounded_line :
    Config.reference.wellFormed = true ∧ ({ Config.reference with lineMax := none } : Config).wellFormed = true := by
  decide

/-- Straps of the reference configuration: `NDEV = 3`, `RW`, `RO`. -/
def straps : Straps :=
  { ndev := 3#6, tag := ((Vector.replicate 31 0b00#2).set 0 0b11#2).set 1 0b01#2, sentinel := 0xFF#8
    placeholder := 0x20#8, dispN := 20, lineMax := some 255 }

theorem test_straps_reference : sampleStraps straps = some Config.reference := by decide

theorem test_straps_refused :
    sampleStraps { straps with ndev := 0#6 } = none ∧ sampleStraps { straps with ndev := 33#6 } = none ∧
      sampleStraps { straps with tag := straps.tag.set 1 0b10#2 } = none ∧
      sampleStraps { straps with dispN := 0 } = none ∧ sampleStraps { straps with lineMax := some 0 } = none := by
  decide

/-! Decoding: words written bit by bit from the formats (format `T`: OP, zero, A, D; `I`: OP, zero, W, zero, DEV; `L`:
OP, DEV, ORG, LEN; `V`: OP, zero, LEN; `Z`: OP, zero). -/

theorem test_decode_mrd : dec .cpu 0b0000_0000_0000000100100011_00000000#32 [] = .op (.mrd 0x0123#16) := by decide

theorem test_decode_mwr : dec .cpu 0b0001_0000_0000000100100011_10101011#32 [] = .op (.mwr 0x0123#16 0xAB#8) := by
  decide

theorem test_decode_iord : dec .cpu 0b0010_0000_1011111011101111_00000000#32 [] = .op (.iord 0xBEEF#16) := by decide

theorem test_decode_iowr : dec .cpu 0b0011_0000_1111111111111111_01111111#32 [] = .op (.iowr 0xFFFF#16 0x7F#8) := by
  decide

theorem test_decode_install : dec .setup 0b0100_000000000000000_11111_000_00001#32 [] = .op (.install 31#5 1#5) := by
  decide

theorem test_decode_load :
    dec .setup 0b0101_00010_11111111110_000000000010#32 [0x5A#8, 0xA5#8] =
      .op (.load 2#5 0x7FE#11 [0x5A#8, 0xA5#8]) := by decide

theorem test_decode_start : dec .setup 0b0110_0000000000000000000000000000#32 [] = .op .start := by decide

theorem test_decode_line :
    dec .operator 0b1000_000000000000_0000000000000010#32 [0x41#8, 0x42#8] = .op (.line [0x41#8, 0x42#8]) := by decide

theorem test_decode_disp : dec .operator 0b1001_0000000000000000000000000000#32 [] = .op .disp := by decide

/-- The rejections of spec/95_test_vectors.md 2.5. -/
theorem test_decode_rejects :
    dec .cpu 0x000123AB#32 [] = .bad .nonzeroBits ∧ dec .cpu 0x01012300#32 [] = .bad .nonzeroBits ∧
      dec .cpu 0x20BEEF01#32 [] = .bad .nonzeroBits ∧ dec .setup 0x40002001#32 [] = .bad .nonzeroBits ∧
      dec .setup 0x40000021#32 [] = .bad .nonzeroBits ∧ dec .setup 0x60000001#32 [] = .bad .nonzeroBits ∧
      dec .operator 0x80010000#32 [] = .bad .nonzeroBits ∧ dec .cpu 0x40000102#32 [] = .bad .wrongPort ∧
      dec .cpu 0x90000000#32 [] = .bad .wrongPort ∧ dec .setup 0x70000000#32 [] = .bad .reservedOpcode ∧
      dec .operator 0xA0000000#32 [] = .bad .reservedOpcode ∧ dec .cpu 0xFFFFFFFF#32 [] = .bad .reservedOpcode := by
  decide

/-- The numbering of the opcode table: the payload's bytes count on from bit 32. -/
theorem test_table_word :
    decodeTableWord 32 0x40001F01 = some (.install 31#5 1#5) ∧
      decodeTableWord 48 0x4241_80000002 = some (.line [0x41#8, 0x42#8]) ∧
      decodeTableWord 32 0x50800005 = some (.load 1#5 0#11 [0#8, 0#8, 0#8, 0#8, 0#8]) ∧
      decodeTableWord 32 0x70000000 = none := by decide

/-- The decode vectors of spec/95_test_vectors.md 2.1. -/
theorem test_address_decode :
    (reduceAddr 0x12345 = 0x2345#16 ∧ windowOf 0x2345#16 = 4#5 ∧ offsetOf 0x2345#16 = 0x345#11) ∧
      (reduceAddr (-2049) = 0xF7FF#16 ∧ windowOf 0xF7FF#16 = 30#5 ∧ offsetOf 0xF7FF#16 = 0x7FF#11) ∧
      reduceAddr (-2048) = 0xF800#16 := by decide

/-- Script lines: `LINE "AB"`, `PUTS 1, "Hi"`, `MRD -1`, and a character that no port can carry. -/
theorem test_assemble :
    assemble (.lineText "AB") = some [.line [0x41#8, 0x42#8]] ∧
      assemble (.puts 1#16 "Hi") = some [.iowr 1#16 0x48#8, .iowr 1#16 0x69#8] ∧
      assemble (.mrd (-1)) = some [.mrd 0xFFFF#16] ∧ assemble (.lineText "ā") = none := by decide +kernel

/-! One-step tests (vectors of spec/95_test_vectors.md by their names). -/

/-- B2. -/
theorem test_mrd_ram :
    seen (·.cRsp) (exec (.mrd 0x0123#16) (refmap.setBuf [(cellKey 1 0x123, 0xAB#8)])) = some [0xAB#8] := by decide

/-- B7, and the last address. -/
theorem test_mrd_unmapped :
    seen (·.cRsp) (exec (.mrd 0x1000#16) running) = some [0xFF#8] ∧
      seen (·.cRsp) (exec (.mrd 0xFFFF#16) running) = some [0xFF#8] := by decide

/-- B1. -/
theorem test_mwr_ram :
    seen (·.buf) (exec (.mwr 0x0123#16 0xAB#8) (running.setBuf [(cellKey 1 0x123, 0x00#8)])) =
      some [(cellKey 1 0x123, 0xAB#8)] := by decide

/-- B4. -/
theorem test_mwr_rom :
    seen (·.buf) (exec (.mwr 0x0810#16 0x00#8) (running.setBuf [(cellKey 2 0x010, 0xDE#8)])) =
      some [(cellKey 2 0x010, 0xDE#8)] := by decide

/-- D4. -/
theorem test_install_last_window :
    seen (fun t => (t.wmapAt 31#5, t.wmapAt 30#5)) (exec (.install 31#5 1#5) refmap) = some (1#5, 0#5) := by decide

/-- D5 and D6. -/
theorem test_install_refused :
    reason (exec (.install 0#5 3#5) refmap) = some .badDevice ∧
      reason (exec (.install 2#5 1#5) running) = some .notInSetup := by decide

/-- D7. -/
theorem test_load_rom :
    seen (fun t => (t.buf.byteAt? (cellKey 2 0x010), t.buf.byteAt? (cellKey 2 0x013), t.buf.byteAt? (cellKey 2 0x014)))
      (exec (.load 2#5 0x010#11 [0xDE#8, 0xAD#8, 0xBE#8, 0xEF#8]) refmap) =
        some (some 0xDE#8, some 0xEF#8, none) := by decide

/-- D8, D9 and D12. -/
theorem test_load_edges :
    seen (·.buf) (exec (.load 1#5 0x7FF#11 [0x5A#8]) refmap) = some [(cellKey 1 0x7FF, 0x5A#8)] ∧
      reason (exec (.load 1#5 0x7FF#11 [0#8, 0#8]) refmap) = some .loadRange ∧
      seen (·.buf) (exec (.load 0#5 0#11 [0x01#8]) refmap) = some [] := by decide

/-- D16. -/
theorem test_start : seen (·.phase) (exec .start refmap) = some .run := by decide

/-- D17. -/
theorem test_start_twice : reason (exec .start running) = some .notInSetup := by decide

/-- C10 and C11. -/
theorem test_iord_front :
    seen (fun t => (t.inq, t.cRsp)) (exec (.iord 1#16) (running.setInq [0x41#8, 0x42#8])) =
        some ([0x42#8], [0x41#8]) ∧
      seen (fun t => (t.inq, t.wait)) (exec (.iord 0xBEEF#16) (running.setInq [0x42#8])) = some ([], false) := by decide

/-- C12. -/
theorem test_iord_suspends : seen (fun t => (t.wait, t.cRsp)) (exec (.iord 1#16) running) = some (true, []) := by
  decide

/-- C2 and C4. -/
theorem test_iowr_edges :
    seen (·.outw) (exec (.iowr 0#16 0x1F#8) (running.setOutw [0x20#8])) = some [] ∧
      seen (·.outw) (exec (.iowr 0xFFFF#16 0x7F#8) (running.setOutw [0x41#8])) = some [0x41#8, 0x7F#8] := by decide

/-- C8, its fourth write: the oldest byte is dropped. -/
theorem test_iowr_scrolls :
    seen (·.outw) (exec (.iowr 0#16 0x64#8)
      { running with cfg := { Config.reference with dispN := 3 }, outw := [0x61#8, 0x62#8, 0x63#8] }) =
        some [0x62#8, 0x63#8, 0x64#8] := by decide

/-- C15 and C14. -/
theorem test_line :
    seen (fun t => (t.inq, t.wait, t.cRsp)) (exec (.line [0x41#8, 0x42#8]) waiting) =
        some ([0x42#8], false, [0x41#8]) ∧
      seen (fun t => (t.inq, t.cRsp)) (exec (.line []) waiting) = some ([], [0x20#8]) := by decide

/-- C18 and C19. -/
theorem test_line_refused :
    reason (exec (.line [0x41#8]) running) = some .lineNotRequested ∧
      reason (exec (.line (List.replicate 256 0#8)) waiting) = some .lineTooLong := by decide +kernel

/-- S5. -/
theorem test_disp : seen (·.oRsp) (exec .disp (running.setOutw [0x48#8, 0x69#8])) = some [[0x48#8, 0x69#8]] := by
  decide

/-- C20. -/
theorem test_disp_while_waiting : seen (fun t => (t.oRsp, t.wait)) (exec .disp waiting) = some ([[]], true) := by decide

/-- B11 and C21: held operations stay pending, and the operator's line goes past them. -/
theorem test_step_hold :
    seen (fun t => (t.arrivals, t.wait)) (step (waiting.setArrivals [encode (.mrd 0#16), encode (.line [0x41#8])])) =
        some ([encode (.mrd 0#16)], false) ∧
      seen (fun t => (t.arrivals, t.outw)) (step (waiting.setArrivals [encode (.iowr 1#16 0x41#8)])) =
        some ([encode (.iowr 1#16 0x41#8)], []) := by decide

/-- A placed table word is the next thing run. -/
theorem test_step_placed_word :
    seen (fun t => t.wmapAt 31#5) (step (State.reset.withFetchWord 32 0x40001F01)) = some 1#5 ∧
      reason (step (State.reset.withFetchWord 32 0x70000000)) = some .badEncoding := by decide

/-! Witnesses: for every statement with hypotheses, a state and operands that meet them together, at the edges of
each clause. -/

/-- A bound on a line, as the statements write it, at a length that meets it exactly. -/
theorem reference_line_bound {n : Nat} (h : n ≤ 255) : ∀ m, Config.reference.lineMax = some m → n ≤ m := by
  intro m hm
  cases hm
  exact h

theorem witness_EncodingAndDecodingAreInverse :
    (Instr.load 31#5 0x7FF#11 (List.replicate 4095 0#8)).wellFormed = true ∧
      (Instr.line (List.replicate 65535 0#8)).wellFormed = true ∧
      decode ⟨.setup, 0x51001002#32, [0x5A#8, 0xA5#8]⟩ = .op (.load 2#5 1#11 [0x5A#8, 0xA5#8]) := by
  refine ⟨?_, ?_, by decide⟩ <;> simp only [Instr.wellFormed, List.length_replicate] <;> decide

/-- The length of the payload, a rejected transaction, and the three range checks at the first value that fails. -/
theorem witness_BadEncodingExactlyInCasesAbc :
    ([0x41#8, 0x42#8] : List Byte).length = announced 0x80000002#32 ∧ ([] : List Byte).length = announced 0x70000000#32 ∧
      refmap.cfg.wellFormed = true ∧ decode ⟨.cpu, 0x40000102#32, []⟩ = .bad .wrongPort ∧
      ([] : List Byte).length = announced 0x40000102#32 ∧
      refmap.phase = .setup ∧ refmap.wait = false ∧ ndev refmap.cfg ≤ (3#5 : DevIx).toNat ∧
      (2#5 : DevIx).toNat < ndev refmap.cfg ∧ 2048 < (0x7FF#11 : Offset).toNat + [0#8, 0#8].length ∧
      waiting.phase = .setup ∧ waiting.wait = true ∧ 255 < 256 ∧ waiting.cfg.lineMax = some 255 := by decide

theorem witness_PayloadOfWrongLengthIsRejected :
    ([0x41#8] : List Byte).length ≠ announced 0x80000002#32 ∧
      ([0x41#8] : List Byte).length ≠ announced 0x60000000#32 ∧ waiting.cfg.wellFormed = true := by
  decide

/-- Once with no read suspended and once for the operator's line during a suspended read. -/
theorem witness_StepRunsTheOldestTransaction :
    running.cfg.wellFormed = true ∧ decode (encode (.mrd 0xFFFF#16)) = .op (.mrd 0xFFFF#16) ∧ running.wait = false ∧
      decode (encode (.line [0x41#8])) = .op (.line [0x41#8]) ∧ holdsInWait (.line [0x41#8]) = false := by decide

/-- Held transactions of both ports in front of a line; nothing but held ones; nothing at all. -/
theorem witness_WaitPassesOverHoldingTransactions :
    let held := [encode (.mrd 0#16), encode .start]
    (∀ h ∈ held, ∃ j, decode h = .op j ∧ holdsInWait j = true) ∧ waiting.cfg.wellFormed = true ∧ waiting.wait = true ∧
      decode (encode (.line [])) = .op (.line []) ∧ holdsInWait (.line []) = false ∧ waiting.arrivals = [] := by
  refine ⟨?_, by decide⟩
  intro h hh
  simp only [List.mem_cons, List.not_mem_nil, or_false] at hh
  rcases hh with rfl | rfl
  · exact ⟨.mrd 0#16, by decide⟩
  · exact ⟨.start, by decide⟩

theorem witness_HeldOperationStaysPending : waiting.wait = true ∧ holdsInWait (.mwr 0#16 1#8) = true := by decide

/-- An operation that fails no check, and one that fails two, the first of which decides. -/
theorem witness_FirstFailingCheckDecides :
    ¬(refmap.wait = true ∧ holdsInWait (.install 0#5 2#5) = true) ∧ verdict refmap (.install 0#5 2#5) = none ∧
      verdict running (.load 3#5 0x7FF#11 [0#8, 0#8]) = some .notInSetup ∧
      verdict refmap (.load 3#5 0x7FF#11 [0#8, 0#8]) = some .badDevice ∧
      verdict refmap (.load 2#5 0x7FF#11 [0#8, 0#8]) = some .loadRange ∧
      ¬(waiting.wait = true ∧ holdsInWait (.line []) = true) ∧ verdict waiting (.line []) = none := by decide

theorem witness_StepRunsThePlacedWord :
    State.reset.cfg.wellFormed = true ∧ State.reset.wait = false ∧
      decodeTableWord 32 0x00FFFF00 = some (.mrd 0xFFFF#16) := by decide

/-- The first and the last address, one that wraps and a negative one, with a read suspended and with none. -/
theorem witness_MrdRespondsWithTheMappedByte :
    (0 : Int) % 65536 = (0#5 : WinIx).toNat * 2048 + (0#11 : Offset).toNat ∧
      (0xFFFF : Int) % 65536 = (31#5 : WinIx).toNat * 2048 + (0x7FF#11 : Offset).toNat ∧
      (0x10800 : Int) % 65536 = (1#5 : WinIx).toNat * 2048 + (0#11 : Offset).toNat ∧
      (-1 : Int) % 65536 = (31#5 : WinIx).toNat * 2048 + (0x7FF#11 : Offset).toNat ∧
      waiting.wait = true ∧ running.wait = false := by decide

theorem witness_MwrWritesTheMappedByteOfRamOnly :
    (0x07FF : Int) % 65536 = (0#5 : WinIx).toNat * 2048 + (0x7FF#11 : Offset).toNat ∧
      (-2048 : Int) % 65536 = (31#5 : WinIx).toNat * 2048 + (0#11 : Offset).toNat ∧
      waiting.wait = true ∧ running.wait = false ∧ (0x7FF#11 : Offset).toNat < 2048 ∧
      tagOf running.cfg (running.wmapAt 0#5).toNat = .rw := by decide

/-- The reference map, reached by the two installs, and a write that completes; the edges of the three ranges. -/
theorem witness_BusLawsOfTheReferenceMap :
    ReferenceMap refmap ∧ refmap.wait = false ∧
      (∃ t, execAll (writes [(0x07FF#16, 0xFE#8), (0x0800#16, 0x55#8), (0x1000#16, 0x55#8)]) refmap = .next t) ∧
      (0x07FF#16 : Addr).toNat ≤ 0x07FF ∧ 0x0800 ≤ (0x0FFF#16 : Addr).toNat ∧ (0x0FFF#16 : Addr).toNat ≤ 0x0FFF ∧
      0x1000 ≤ (0x1000#16 : Addr).toNat ∧ ∃ t, exec (.mwr 0xFFFF#16 1#8) refmap = .next t :=
  ⟨⟨rfl, by decide⟩, rfl, ⟨_, rfl⟩, by decide, by decide, by decide, by decide, ⟨_, rfl⟩⟩

/-- A state whose byte already holds the value written. -/
theorem witness_RewritingAByteChangesNothing :
    let s := running.setBuf [(cellKey 1 0, 0x12#8)]
    s.wait = false ∧ (∃ t, exec (.mwr 0#16 0x12#8) s = .next t) ∧ memRead s (0#16 : Addr).toNat = 0x12#8 :=
  ⟨rfl, ⟨_, rfl⟩, by decide⟩

theorem witness_ReadReturnsTheMostRecentWrite : running.wait = false := rfl

/-- One `RW` device at the first and the last window. -/
theorem witness_AliasedWindowsShareTheirBytes :
    let s := refmap.setWmap 31#5 1#5
    s.wmapAt 0#5 = s.wmapAt 31#5 ∧ s.wait = false ∧ tagOf s.cfg (s.wmapAt 0#5).toNat = .rw := by decide

/-- One device of each tag, at the last offset. -/
theorem witness_DevReadFollowsTheTag :
    (1 < ndev refmap.cfg ∧ tagOf refmap.cfg 1 = .rw) ∧ (2 < ndev refmap.cfg ∧ tagOf refmap.cfg 2 = .ro) ∧
      (0 < ndev refmap.cfg ∧ tagOf refmap.cfg 0 = .unmapped) ∧ 2047 < 2048 := by decide

theorem witness_DevWriteReachesRamOnly :
    (1 < ndev refmap.cfg ∧ tagOf refmap.cfg 1 = .rw) ∧ (2 < ndev refmap.cfg ∧ tagOf refmap.cfg 2 = .ro) ∧
      (0 < ndev refmap.cfg ∧ tagOf refmap.cfg 0 = .unmapped) ∧ 0 < 2048 := by decide

/-- Up to the last offset, and a byte outside. -/
theorem witness_DevLoadPlacesBytesAscending :
    2 < ndev refmap.cfg ∧ 2046 + [0#8, 1#8].length ≤ 2048 ∧ tagOf refmap.cfg 2 = .ro ∧
      ¬(2 = 2 ∧ 2046 ≤ 2045 ∧ 2045 < 2046 + [0#8, 1#8].length) ∧ 0 < ndev refmap.cfg ∧
      tagOf refmap.cfg 0 = .unmapped := by decide

theorem witness_InstallSetsOneMapEntry :
    waiting.wait = true ∧ (running.wait = false ∧ running.phase ≠ .setup) ∧
      (refmap.wait = false ∧ refmap.phase = .setup ∧ ndev refmap.cfg ≤ (3#5 : DevIx).toNat) ∧
      (2#5 : DevIx).toNat < ndev refmap.cfg := by decide

theorem witness_LoadFillsTheNamedDevice :
    waiting.wait = true ∧ (running.wait = false ∧ running.phase ≠ .setup) ∧
      (refmap.wait = false ∧ refmap.phase = .setup ∧ ndev refmap.cfg ≤ (3#5 : DevIx).toNat) ∧
      ((2#5 : DevIx).toNat < ndev refmap.cfg ∧ 2048 < (0x7FF#11 : Offset).toNat + [0#8, 0#8].length) ∧
      (0x7FF#11 : Offset).toNat + [0x5A#8].length ≤ 2048 ∧ tagOf refmap.cfg (1#5 : DevIx).toNat ≠ .unmapped ∧
      tagOf refmap.cfg (0#5 : DevIx).toNat = .unmapped ∧ [0x5A#8].length ≤ 4095 := by decide

theorem witness_StartEndsTheSetupPhase :
    waiting.wait = true ∧ (running.wait = false ∧ running.phase ≠ .setup) ∧
      (refmap.wait = false ∧ refmap.phase = .setup) := by decide

theorem witness_OnlyStartChangesThePhase :
    ∃ t, step (refmap.setArrivals [encode .start]) = .next t ∧ t.phase ≠ (refmap.setArrivals [encode .start]).phase :=
  ⟨_, rfl, by decide⟩

theorem witness_OnlyInstallChangesTheMap :
    ∃ t, step (refmap.setArrivals [encode (.install 31#5 2#5)]) = .next t ∧
      t.wmap ≠ (refmap.setArrivals [encode (.install 31#5 2#5)]).wmap :=
  ⟨_, rfl, by decide⟩

/-- A byte that a write changes, and a ROM byte that a load changes. -/
theorem witness_OnlyMwrAndLoadChangeBuffers :
    let s := (running.setBuf [(cellKey 1 0x7FF, 0#8)]).setArrivals [encode (.mwr 0x07FF#16 1#8)]
    let u := (refmap.setBuf [(cellKey 2 0, 0#8)]).setArrivals [encode (.load 2#5 0#11 [1#8])]
    (∃ t, step s = .next t ∧ 2047 < 2048 ∧ bufByte t 1 2047 ≠ bufByte s 1 2047) ∧
      ∃ t, step u = .next t ∧ 0 < 2048 ∧ bufByte t 2 0 ≠ bufByte u 2 0 :=
  ⟨⟨_, rfl, by decide, by decide⟩, ⟨_, rfl, by decide, by decide⟩⟩

/-- A run in `RUN`: an agent presents a write, the block takes it up. -/
theorem witness_TopologyIsFixedInRun :
    ∃ t, Run running t ∧ running.phase = .run ∧ t.arrivals = [] :=
  ⟨_, .step (.present (x := encode (.mwr 0#16 1#8)) (.refl running) rfl) rfl, rfl, rfl⟩

theorem witness_RomNeverChangesInRun :
    (∃ t, Run running t ∧ t.arrivals = []) ∧ running.phase = .run ∧ 2047 < 2048 ∧ tagOf running.cfg 2 ≠ .rw ∧
      tagOf running.cfg 0 ≠ .rw :=
  ⟨⟨_, .step (.present (x := encode (.mwr 0x0FFF#16 1#8)) (.refl running) rfl) rfl, rfl⟩, by decide⟩

theorem witness_RefmapBuildsTheReferenceMap :
    State.reset.wait = false ∧ State.reset.phase = .setup ∧ State.reset.cfg.tags = [.rw, .ro] ∧
      ∀ w : WinIx, State.reset.wmapAt w = 0#5 := by decide

/-- A held read, a read that finds a queue, and one that finds none. -/
theorem witness_IordTakesTheFrontOrSuspends :
    waiting.wait = true ∧
      ((running.setInq [0x42#8]).wait = false ∧ (running.setInq [0x42#8]).inq = 0x42#8 :: []) ∧
      running.wait = false ∧ running.inq = [] := by decide

theorem witness_IowrClearsOrAppends :
    waiting.wait = true ∧ running.wait = false ∧ (31#8 : Byte).toNat < 32 ∧ 32 ≤ (32#8 : Byte).toNat := by decide

/-- An unrequested line, a line one too long, an empty line and one of two characters. -/
theorem witness_LineCompletesTheSuspendedRead :
    running.wait = false ∧ waiting.wait = true ∧ waiting.cfg.lineMax = some 255 ∧ 255 < 256 ∧
      (∀ m, waiting.cfg.lineMax = some m → ([] : List Byte).length ≤ m) ∧
      (∀ m, waiting.cfg.lineMax = some m → ([0x41#8, 0x42#8] : List Byte).length ≤ m) ∧
      ([0x41#8, 0x42#8] : List Byte) = 0x41#8 :: [0x42#8] :=
  ⟨rfl, rfl, rfl, by decide, reference_line_bound (by decide), reference_line_bound (by decide), rfl⟩

theorem witness_PortNumberIsIgnored : running.wait = false := rfl

theorem witness_LineIsReadInOrder :
    waiting.wait = true ∧ [0xBEEF#16].length = [0x42#8].length ∧
      ∀ m, waiting.cfg.lineMax = some m → (0x41#8 :: [0x42#8]).length ≤ m :=
  ⟨rfl, rfl, reference_line_bound (by decide)⟩

theorem witness_WindowHoldsTheLastPrintables : running.wait = false ∧ running.outw = [] := by decide

/-- Three values onto a window three wide that was full. -/
theorem witness_EnoughPrintablesFillTheWindow :
    let s : State := { running with cfg := { Config.reference with dispN := 3 }, outw := [0x61#8, 0x62#8, 0x63#8] }
    let vs : List (PortNum × Byte) := [(0#16, 0x20#8), (1#16, 0x7F#8), (7#16, 0xFF#8)]
    s.wait = false ∧ (∀ x ∈ vs, 32 ≤ x.2.toNat) ∧ 1 ≤ s.cfg.dispN ∧ s.cfg.dispN ≤ vs.length := by
  refine ⟨rfl, ?_, by decide, by decide⟩
  intro x hx
  simp only [List.mem_cons, List.not_mem_nil, or_false] at hx
  rcases hx with rfl | rfl | rfl <;> decide

theorem witness_FusedReadAgreesWithReadAndLine :
    running.wait = false ∧ running.inq = [] ∧ ∀ m, running.cfg.lineMax = some m → ([0x41#8] : List Byte).length ≤ m :=
  ⟨rfl, rfl, reference_line_bound (by decide)⟩

/-- A step that ends the wait and one that does not. -/
theorem witness_OnlyLineEndsTheWait :
    (∃ t, step (waiting.setArrivals [encode (.mrd 0#16), encode (.line [])]) = .next t ∧ t.wait = false) ∧
      (∃ t, step (waiting.setArrivals [encode .disp]) = .next t ∧ t.wait = true) ∧ waiting.wait = true :=
  ⟨⟨_, rfl, rfl⟩, ⟨_, rfl, rfl⟩, rfl⟩

/-- A bus operation, a setup operation and a console operation that each answer a next state. -/
theorem witness_MemoryAndConsoleAreSeparate :
    (∃ t, exec (.mwr 0#16 1#8) refmap = .next t) ∧ (∃ t, exec (.install 31#5 2#5) refmap = .next t) ∧
      ∃ t, exec (.iowr 0#16 0x41#8) refmap = .next t :=
  ⟨⟨_, rfl⟩, ⟨_, rfl⟩, ⟨_, rfl⟩⟩

/-- Every operation in range somewhere, at the last value in range. -/
theorem witness_TransactionsInRangeComplete :
    refmap.cfg.wellFormed = true ∧ decode (encode (.load 2#5 0x7FF#11 [1#8])) = .op (.load 2#5 0x7FF#11 [1#8]) ∧
      InRange refmap (.mrd 0xFFFF#16) ∧ InRange refmap (.mwr 0xFFFF#16 0#8) ∧ InRange refmap (.iord 0#16) ∧
      InRange refmap (.iowr 0#16 0#8) ∧ InRange refmap (.install 31#5 2#5) ∧
      InRange refmap (.load 2#5 0x7FF#11 [1#8]) ∧ InRange refmap .start ∧ InRange waiting (.line [0x41#8]) ∧
      InRange waiting .disp :=
  ⟨rfl, by decide, rfl, rfl, rfl, rfl, ⟨rfl, rfl, by decide⟩, ⟨rfl, rfl, by decide, by decide⟩, ⟨rfl, rfl⟩,
    ⟨rfl, reference_line_bound (by decide)⟩, trivial⟩

theorem witness_RespondersAndTheirPorts :
    (∃ t, exec (.mrd 0xFFFF#16) running = .next t ∧ t.cRsp = [0xFF#8]) ∧
      ∃ t, exec .disp running = .next t ∧ t.oRsp = [[]] :=
  ⟨⟨_, rfl, by decide⟩, ⟨_, rfl, by decide⟩⟩

/-- The invariant holds of the state after reset. -/
theorem witness_reset_inv : State.reset.Inv where
  config := by decide
  mapped := by decide
  canonical := by decide
  owned := by
    intro k v h
    cases h
  queue := by decide
  window := by decide
  printable := by
    intro b h
    cases h
  emptyInWait := by
    intro h
    cases h

theorem witness_StepKeepsTheInvariant :
    ∃ t, State.reset.Inv ∧ step State.reset = .next t := ⟨_, witness_reset_inv, rfl⟩

theorem witness_ResetSatisfiesTheInvariant :
    Config.reference.wellFormed = true ∧ ({ Config.reference with tags := [], lineMax := none } : Config).wellFormed = true := by
  decide

/-- Nothing has written the last byte of device 1. -/
theorem witness_UnloadedByteReadsItsFreeImage :
    running.wait = false ∧ tagOf running.cfg (running.wmapAt 0#5).toNat ≠ .unmapped ∧
      running.buf.byteAt? (cellKey (running.wmapAt 0#5).toNat (0x7FF#11 : Offset).toNat) = none := by decide

/-- Good straps with the greatest and the least `NDEV`, bad ones, and a state with a bad configuration. -/
theorem witness_StrapsAreSampledAndChecked :
    (sampleStraps { straps with ndev := 32#6 }).isSome = true ∧ (sampleStraps { straps with ndev := 1#6 }).isSome = true ∧
      (sampleStraps { straps with ndev := 33#6 }).isSome = false ∧
      ({ running with cfg := { Config.reference with dispN := 0 } } : State).cfg.wellFormed = false ∧
      ∃ t, step running = .next t :=
  ⟨by decide, by decide, by decide, by decide, ⟨_, rfl⟩⟩

/-- The straps of the reference configuration are good in the statement's own terms. -/
theorem witness_StrapsGood : StrapsGood straps := by
  refine ⟨by decide, by decide, ?_, by decide, ?_⟩
  · intro d h1 h2
    have h3 : d < 3 := h2
    have h4 : d = 1 ∨ d = 2 := by omega
    rcases h4 with rfl | rfl <;> decide
  · intro m hm
    cases hm
    decide

theorem witness_ResetAgainForgetsEverything :
    ∃ t, resetAgain straps waiting = .next t :=
  ⟨State.resetWith Config.reference 1, by rw [resetAgain, powerOn, test_straps_reference]; rfl⟩

/-- A code of 256, and codes up to 255. -/
theorem witness_WideCharactersAreRefused :
    (∃ c ∈ [0x41, 256], 256 ≤ c) ∧ (∀ c ∈ [0, 255], c < 256) ∧ [0, 255].length ≤ 65535 := by decide

theorem witness_BootFillCoversWritableMemory :
    refmap.cfg.wellFormed = true ∧ refmap.wait = false ∧ refmap.phase = .setup ∧ 2047 < 2048 := by decide

theorem witness_BootSequenceEndsInRun :
    State.reset.cfg.wellFormed = true ∧ State.reset.wait = false ∧ State.reset.phase = .setup ∧
      (∀ x ∈ ([(0#5, 1#5), (1#5, 2#5)] : List (WinIx × DevIx)), x.2.toNat < ndev State.reset.cfg) ∧
      ∀ x ∈ ([(2#5, 0x7FF#11, [0x3E#8])] : List (DevIx × Offset × List Byte)),
        x.1.toNat < ndev State.reset.cfg ∧ x.2.1.toNat + x.2.2.length ≤ 2048 := by decide +kernel

/-- A running loop with the interrupt flag set and one with it clear. -/
theorem witness_ExecutionFaultEndsTheRunAtItsAddress :
    (Loop.mk true 0#16 0x0100#16 .running).status = .running ∧ (Loop.mk true 0#16 0x0100#16 .running).pendingInt = true ∧
      (Loop.mk false 0#16 0xFFFF#16 .running).status = .running ∧
      (Loop.mk false 0#16 0xFFFF#16 .running).pendingInt = false := by decide

/-- The CPU presents a read, which is taken up and suspends; meanwhile it has no further move, and the operator has. -/
theorem witness_CpuHasAtMostOneTransactionPending :
    cpuPending running ≤ 1 ∧ (∃ t, Run running t ∧ t.wait = true ∧ cpuPending t = 1 ∧
      t.present (encode (.mrd 0#16)) = none ∧ (t.present (encode (.line []))).isSome = true) ∧
      (encode (.mrd 0#16)).port = .cpu ∧ running.present (encode (.mrd 0#16)) ≠ none :=
  ⟨by decide, ⟨_, .step (.present (x := encode (.iord 0#16)) (.refl running) rfl) rfl, by decide⟩, by decide⟩

end Sys2Proof.Tests
end

section
/-! PROOF. `INSTALL` where none of its checks fails, and `REFMAP` as two such operations (R106, R144). -/

namespace Sys2Proof.Proofs
open Sys2Proof.Machine Sys2Proof.Claims

/-- `INSTALL` completes where no read is suspended, the phase is `SETUP` and the device is in the table (R144). -/
theorem exec_install_next {s : State} {w : WinIx} {d : DevIx} (hw : s.wait = false) (hp : s.phase = .setup)
    (hd : d.toNat < ndev s.cfg) : exec (.install w d) s = .next (s.setWmap w d) := by
  simp [exec, execInstall, deviceExists, hw, hp, hd]

/-- Two `INSTALL`s in turn: neither touches what the checks of the other look at. -/
theorem execAll_install_install {s : State} {w x : WinIx} {d e : DevIx} (hw : s.wait = false)
    (hp : s.phase = .setup) (hd : d.toNat < ndev s.cfg) (he : e.toNat < ndev s.cfg) :
    execAll [.install w d, .install x e] s = .next ((s.setWmap w d).setWmap x e) := by
  rw [execAll_cons_of_next _ (exec_install_next hw hp hd),
    execAll_cons_of_next _ (exec_install_next (s := s.setWmap w d) hw hp he), execAll_nil]

/-- The two entries `REFMAP` writes make an all-zero map the reference map (R10). -/
theorem referenceMap_setWmap_setWmap {s : State} (htags : s.cfg.tags = [.rw, .ro])
    (hzero : ∀ w : WinIx, s.wmapAt w = 0#5) : ReferenceMap ((s.setWmap 0#5 1#5).setWmap 1#5 2#5) := by
  refine ⟨htags, fun w => ?_⟩
  rw [setWmap_wmapAt, setWmap_wmapAt, hzero]
  by_cases h0 : w = 0#5
  · subst h0; decide
  · simp [h0]

/-- Settles O29: devices 1 and 2 are in the table of the tags `RW`, `RO`, so both `INSTALL`s complete. -/
theorem refmapBuildsTheReferenceMap : Obligations.RefmapBuildsTheReferenceMap := by
  intro s hw hp htags hzero
  have hndev : ndev s.cfg = 3 := by simp [ndev, deviceTable, htags]
  exact ⟨_, execAll_install_install hw hp (by simp [hndev]) (by simp [hndev]),
    referenceMap_setWmap_setWmap htags hzero, rfl⟩

end Sys2Proof.Proofs
end

section
/-! PROOF. The facts about bytes, addresses and single operations that the statements of 10_state.md rest on. -/

namespace Sys2Proof.Proofs
open Sys2Proof.Machine Sys2Proof.Claims

variable {s t : State}

/-! Addresses. -/

@[simp] theorem windowOf_addrOf (w : WinIx) (o : Offset) : windowOf (addrOf w o) = w := append_high w o

@[simp] theorem offsetOf_addrOf (w : WinIx) (o : Offset) : offsetOf (addrOf w o) = o := append_low w o

/-- A read through a window is a read of the device the window maps (R66). -/
theorem memRead_addrOf (s : State) (w : WinIx) (o : Offset) :
    memRead s (addrOf w o).toNat = devRead s (s.wmapAt w).toNat o.toNat := by
  simp [memRead, deviceAt]

/-- A write through a window is a write to the device the window maps (R67). -/
theorem memWrite_addrOf (s : State) (w : WinIx) (o : Offset) (v : Byte) :
    memWrite s (addrOf w o).toNat v = devWrite s (s.wmapAt w).toNat o.toNat v := by
  simp [memWrite, deviceAt]

/-! What the shared operations leave alone. -/

@[simp] theorem devWrite_cfg (s : State) (d o : Nat) (v : Byte) : (devWrite s d o v).cfg = s.cfg := by
  rcases devWrite_cases s d o v with ⟨-, heq⟩ | ⟨-, heq⟩ <;> rw [heq]
  rfl

@[simp] theorem memWrite_phase (s : State) (addr : Int) (v : Byte) : (memWrite s addr v).phase = s.phase := by
  obtain ⟨m, hm⟩ := memWrite_eq_setBuf s addr v
  rw [hm, setBuf_phase]

@[simp] theorem memWrite_wmap (s : State) (addr : Int) (v : Byte) : (memWrite s addr v).wmap = s.wmap := by
  obtain ⟨m, hm⟩ := memWrite_eq_setBuf s addr v
  rw [hm, setBuf_wmap]

@[simp] theorem devLoad_phase (s : State) (d origin : Nat) (bs : List Byte) :
    (devLoad s d origin bs).phase = s.phase := by
  obtain ⟨m, hm⟩ := devLoad_eq_setBuf s d origin bs
  rw [hm, setBuf_phase]

@[simp] theorem devLoad_wmap (s : State) (d origin : Nat) (bs : List Byte) : (devLoad s d origin bs).wmap = s.wmap := by
  obtain ⟨m, hm⟩ := devLoad_eq_setBuf s d origin bs
  rw [hm, setBuf_wmap]

/-! Bytes of the buffers. -/

/-- A buffer byte depends on the store and the number of the reset only. -/
theorem bufByte_congr (hboot : t.boot = s.boot) (hbuf : t.buf = s.buf) (d o : Nat) : bufByte t d o = bufByte s d o := by
  simp only [bufByte, hboot, hbuf]

theorem buffered_iff (g : Tag) : buffered g = true ↔ g ≠ .unmapped := by
  cases g <;> simp [buffered]

/-- A device that has a buffer answers its byte (R140). -/
theorem devRead_of_ne_unmapped {d : Nat} (h : tagOf s.cfg d ≠ .unmapped) (o : Nat) : devRead s d o = bufByte s d o := by
  cases htag : tagOf s.cfg d with
  | unmapped => exact absurd htag h
  | rw => simp [devRead, bufByte, htag, readsPass]
  | ro => simp [devRead, bufByte, htag, readsPass]

/-- Every buffer byte after a device write (R141). -/
theorem bufByte_devWrite (s : State) (d e : Nat) {o p : Nat} (v : Byte) (ho : o < 2048) (hp : p < 2048) :
    bufByte (devWrite s d o v) e p = if e = d ∧ p = o ∧ tagOf s.cfg d = .rw then v else bufByte s e p := by
  rcases devWrite_cases s d o v with ⟨htag, heq⟩ | ⟨htag, heq⟩
  · rw [heq]
    by_cases hkey : e = d ∧ p = o
    · obtain ⟨rfl, rfl⟩ := hkey
      simp [bufByte, htag]
    · have hne : cellKey e p ≠ cellKey d o := fun h => hkey ((cellKey_inj hp ho).mp h)
      rw [if_neg fun h => hkey ⟨h.1, h.2.1⟩]
      simp [bufByte, byteAt?_store_other _ v hne]
  · rw [heq, if_neg fun h => htag h.2.2]

/-- Byte `i` of a load of a buffered device (R142). -/
theorem bufByte_devLoad_inside {d : Nat} (htag : tagOf s.cfg d ≠ .unmapped) (origin : Nat) (bs : List Byte) {i : Nat}
    (hi : i < bs.length) : bufByte (devLoad s d origin bs) d (origin + i) = bs[i] := by
  have hkey : cellKey d (origin + i) = cellKey d origin + i := by simp only [cellKey]; omega
  simp [devLoad, (buffered_iff _).mpr htag, bufByte, hkey, byteAt?_storeAll_inside, hi]

/-- A load that fits its buffer leaves every byte outside its range alone (R142). -/
theorem bufByte_devLoad_outside (s : State) {d origin e p : Nat} {bs : List Byte} (hfits : origin + bs.length ≤ 2048)
    (hp : p < 2048) (hout : ¬(e = d ∧ origin ≤ p ∧ p < origin + bs.length)) :
    bufByte (devLoad s d origin bs) e p = bufByte s e p := by
  rcases devLoad_cases s d origin bs with ⟨-, heq⟩ | ⟨-, heq⟩
  · have hkey : cellKey e p < cellKey d origin ∨ cellKey d origin + bs.length ≤ cellKey e p := by
      simp only [cellKey]
      omega
    simp [heq, bufByte, byteAt?_storeAll_outside _ bs hkey]
  · rw [heq]

/-! Single operations where none of their checks fails. -/

theorem lineFits_iff (c : Config) (n : Nat) : lineFits c n = true ↔ ∀ m, c.lineMax = some m → n ≤ m := by
  cases h : c.lineMax <;> simp [lineFits, h]

theorem exec_mrd_next (hw : s.wait = false) (a : Addr) : exec (.mrd a) s = .next (s.respondCpu (memRead s a.toNat)) := by
  simp [exec, execMrd, hw]

theorem exec_mwr_next (hw : s.wait = false) (a : Addr) (v : Byte) : exec (.mwr a v) s = .next (memWrite s a.toNat v) := by
  simp [exec, execMwr, hw]

theorem exec_iord_front {b : Byte} {q : List Byte} (hw : s.wait = false) (hq : s.inq = b :: q) (port : PortNum) :
    exec (.iord port) s = .next ((s.setInq q).respondCpu b) := by
  simp [exec, execIord, hw, hq]

theorem exec_iord_suspends (hw : s.wait = false) (hq : s.inq = []) (port : PortNum) :
    exec (.iord port) s = .next (s.setWait true) := by
  simp [exec, execIord, hw, hq]

theorem exec_line_next {bs : List Byte} (hw : s.wait = true) (hfits : lineFits s.cfg bs.length = true) :
    exec (.line bs) s = .next (completeRead s (refill s.cfg bs)) := by
  simp [exec, execLine, hw, hfits]

end Sys2Proof.Proofs
end

section
/-! PROOF. The two sides of the state (R30): what an operation, and a step, can do to phase, map and buffers, and what
to queue, window and `WAIT`. -/

namespace Sys2Proof.Proofs
open Sys2Proof.Machine Sys2Proof.Claims

variable {s t : State} {i : Instr}

/-- Phase, map and buffers are as they were. -/
def SameMemory (s t : State) : Prop := t.phase = s.phase ∧ t.wmap = s.wmap ∧ t.buf = s.buf

/-- Queue, window and `WAIT` are as they were. -/
def SameConsole (s t : State) : Prop := t.inq = s.inq ∧ t.outw = s.outw ∧ t.wait = s.wait

/-- The four ways in which an operation changes phase, map or buffers. -/
inductive MemoryChange (s : State) : Instr → State → Prop where
  | mwr (a : Addr) (v : Byte) : MemoryChange s (.mwr a v) (memWrite s a.toNat v)
  | install (w : WinIx) (d : DevIx) (hphase : s.phase = .setup) (hdev : d.toNat < ndev s.cfg) :
    MemoryChange s (.install w d) (s.setWmap w d)
  | load (d : DevIx) (origin : Offset) (bs : List Byte) (hphase : s.phase = .setup)
    (hdev : d.toNat < ndev s.cfg) (hfits : origin.toNat + bs.length ≤ 2048) :
    MemoryChange s (.load d origin bs) (devLoad s d.toNat origin.toNat bs)
  | start (hphase : s.phase = .setup) : MemoryChange s .start (s.setPhase .run)

/-- The four ways in which an operation changes queue, window or `WAIT`. -/
inductive ConsoleChange (s : State) : Instr → State → Prop where
  | suspend (port : PortNum) (hw : s.wait = false) (hq : s.inq = []) : ConsoleChange s (.iord port) (s.setWait true)
  | pop (port : PortNum) (b : Byte) (q : List Byte) (hw : s.wait = false) (hq : s.inq = b :: q) :
    ConsoleChange s (.iord port) ((s.setInq q).respondCpu b)
  | put (port : PortNum) (v : Byte) (hw : s.wait = false) : ConsoleChange s (.iowr port v) (consolePut s v)
  | line (bs : List Byte) (hw : s.wait = true) (hfits : lineFits s.cfg bs.length = true) :
    ConsoleChange s (.line bs) (((s.setInq bs.tail).setWait false).respondCpu (bs.head?.getD s.cfg.placeholder))

theorem sameSides_setArrivals (s : State) (ts : List Transaction) :
    SameMemory s (s.setArrivals ts) ∧ SameConsole s (s.setArrivals ts) := ⟨⟨rfl, rfl, rfl⟩, rfl, rfl, rfl⟩

theorem sameSides_respondCpu (s : State) (v : Byte) :
    SameMemory s (s.respondCpu v) ∧ SameConsole s (s.respondCpu v) := ⟨⟨rfl, rfl, rfl⟩, rfl, rfl, rfl⟩

theorem sameSides_respondOperator (s : State) (bs : List Byte) :
    SameMemory s (s.respondOperator bs) ∧ SameConsole s (s.respondOperator bs) := ⟨⟨rfl, rfl, rfl⟩, rfl, rfl, rfl⟩

theorem sameMemory_consoleChange (h : ConsoleChange s i t) : SameMemory s t := by
  cases h with
  | put port v hw =>
    rw [consolePut_eq_setOutw]
    exact ⟨rfl, rfl, rfl⟩
  | suspend port hw hq => exact ⟨rfl, rfl, rfl⟩
  | pop port b q hw hq => exact ⟨rfl, rfl, rfl⟩
  | line bs hw hfits => exact ⟨rfl, rfl, rfl⟩

theorem sameConsole_memoryChange (h : MemoryChange s i t) : SameConsole s t := by
  cases h with
  | mwr a v =>
    obtain ⟨m, hm⟩ := memWrite_eq_setBuf s a.toNat v
    rw [hm]
    exact ⟨rfl, rfl, rfl⟩
  | install w d hphase hdev => exact ⟨rfl, rfl, rfl⟩
  | load d origin bs hphase hdev hfits =>
    obtain ⟨m, hm⟩ := devLoad_eq_setBuf s d.toNat origin.toNat bs
    rw [hm]
    exact ⟨rfl, rfl, rfl⟩
  | start hphase => exact ⟨rfl, rfl, rfl⟩

/-- An operation that answers a next state changes one side of the state at most; a change of the memory side is made
by an operation that does not hold, so with no read suspended. -/
theorem exec_sides (h : exec i s = .next t) :
    (SameMemory s t ∧ SameConsole s t) ∨ (s.wait = false ∧ MemoryChange s i t) ∨ ConsoleChange s i t := by
  cases i with
  | mrd addr =>
    rcases execMrd_cases h with ⟨-, rfl⟩ | ⟨-, rfl⟩
    · exact .inl (sameSides_setArrivals s _)
    · exact .inl (sameSides_respondCpu s _)
  | mwr addr v =>
    rcases execMwr_cases h with ⟨-, rfl⟩ | ⟨hw, rfl⟩
    · exact .inl (sameSides_setArrivals s _)
    · exact .inr (.inl ⟨hw, .mwr addr v⟩)
  | install w d =>
    rcases execInstall_cases h with ⟨-, rfl⟩ | ⟨hw, hphase, hdev, rfl⟩
    · exact .inl (sameSides_setArrivals s _)
    · exact .inr (.inl ⟨hw, .install w d hphase (of_decide_eq_true hdev)⟩)
  | load d origin bs =>
    rcases execLoad_cases h with ⟨-, rfl⟩ | ⟨hw, hphase, hdev, hfits, rfl⟩
    · exact .inl (sameSides_setArrivals s _)
    · exact .inr (.inl ⟨hw, .load d origin bs hphase (of_decide_eq_true hdev) (of_decide_eq_true hfits)⟩)
  | start =>
    rcases execStart_cases h with ⟨-, rfl⟩ | ⟨hw, hphase, rfl⟩
    · exact .inl (sameSides_setArrivals s _)
    · exact .inr (.inl ⟨hw, .start hphase⟩)
  | iord port =>
    rcases execIord_cases h with ⟨-, rfl⟩ | ⟨hw, hq, rfl⟩ | ⟨hw, b, q, hq, rfl⟩
    · exact .inl (sameSides_setArrivals s _)
    · exact .inr (.inr (.suspend port hw hq))
    · exact .inr (.inr (.pop port b q hw hq))
  | iowr port v =>
    rcases execIowr_cases h with ⟨-, rfl⟩ | ⟨hw, rfl⟩
    · exact .inl (sameSides_setArrivals s _)
    · exact .inr (.inr (.put port v hw))
  | line bs =>
    obtain ⟨hw, hfits, rfl⟩ := execLine_cases h
    rw [refill_eq_cons, completeRead_cons]
    exact .inr (.inr (.line bs hw hfits))
  | disp =>
    obtain rfl := execDisp_cases h
    exact .inl (sameSides_respondOperator s _)

/-- An operation leaves the memory side alone or changes it in one of the four ways. -/
theorem exec_memory (h : exec i s = .next t) : SameMemory s t ∨ (s.wait = false ∧ MemoryChange s i t) := by
  rcases exec_sides h with ⟨hm, -⟩ | hm | hc
  · exact .inl hm
  · exact .inr hm
  · exact .inl (sameMemory_consoleChange hc)

/-- An operation leaves the console side alone or changes it in one of the four ways. -/
theorem exec_console (h : exec i s = .next t) : SameConsole s t ∨ ConsoleChange s i t := by
  rcases exec_sides h with ⟨-, hc⟩ | ⟨-, hm⟩ | hc
  · exact .inl hc
  · exact .inl (sameConsole_memoryChange hm)
  · exact .inr hc

/-- A step that changes the memory side executed a pending transaction that changes it so, with no read suspended. -/
theorem step_memory (h : step s = .next t) :
    SameMemory s t ∨ (s.wait = false ∧
      ∃ x ∈ s.arrivals, ∃ rest i, decode x = .op i ∧ MemoryChange (s.setArrivals rest) i t) := by
  rcases (step_cases h).2 with rfl | ⟨x, rest, i, hx, hd, he⟩
  · exact .inl ⟨rfl, rfl, rfl⟩
  · exact (exec_memory he).imp_right fun ⟨hw, hm⟩ => ⟨hw, x, (takeUp_some hx).1, rest, i, hd, hm⟩

/-- No step writes the configuration or the reset number (R104). -/
theorem step_cfg_boot (h : step s = .next t) : t.cfg = s.cfg ∧ t.boot = s.boot :=
  step_induction (P := fun s t => t.cfg = s.cfg ∧ t.boot = s.boot) (fun _ => ⟨rfl, rfl⟩)
    (fun s rest _ _ he => exec_cfg_boot (s := s.setArrivals rest) he) h

end Sys2Proof.Proofs
end

section
/-! PROOF. The invariant (R32, R38, R42, R43): each side of the state keeps its half, and a reset establishes it. -/

namespace Sys2Proof.Proofs
open Sys2Proof.Machine Sys2Proof.Claims

variable {s t : State} {i : Instr}

/-- The half of the invariant about map and buffers. -/
structure MemoryInv (s : State) : Prop where
  mapped : ∀ w : WinIx, (s.wmapAt w).toNat < ndev s.cfg
  canonical : s.buf.wf
  owned : ∀ k v, (k, v) ∈ s.buf → buffered (tagOf s.cfg (k / 2048)) = true

/-- The half of the invariant about queue, window and `WAIT`. -/
structure ConsoleInv (s : State) : Prop where
  queue : lineFits s.cfg s.inq.length = true
  window : s.outw.length ≤ s.cfg.dispN
  printable : ∀ b ∈ s.outw, 32 ≤ b.toNat
  emptyInWait : s.wait = true → s.inq = []

theorem inv_iff (s : State) : s.Inv ↔ s.cfg.wellFormed = true ∧ MemoryInv s ∧ ConsoleInv s :=
  ⟨fun ⟨h1, h2, h3, h4, h5, h6, h7, h8⟩ => ⟨h1, ⟨h2, h3, h4⟩, h5, h6, h7, h8⟩,
    fun ⟨h1, ⟨h2, h3, h4⟩, h5, h6, h7, h8⟩ => ⟨h1, h2, h3, h4, h5, h6, h7, h8⟩⟩

theorem memoryInv_of_same (hcfg : t.cfg = s.cfg) (h : SameMemory s t) (hinv : MemoryInv s) : MemoryInv t := by
  obtain ⟨-, hwmap, hbuf⟩ := h
  obtain ⟨hmapped, hcanonical, howned⟩ := hinv
  refine ⟨fun w => ?_, hbuf ▸ hcanonical, hcfg ▸ hbuf ▸ howned⟩
  rw [wmapAt_of_wmap_eq hwmap, hcfg]
  exact hmapped w

/-- A store in canonical form whose new keys are all of one buffered device keeps the half about the memory. -/
theorem memoryInv_setBuf {m : Memory} {d : Nat} (hinv : MemoryInv s) (hm : m.wf) (hd : buffered (tagOf s.cfg d) = true)
    (hnew : ∀ c ∈ m, c.1 / 2048 = d ∨ c ∈ s.buf) : MemoryInv (s.setBuf m) := by
  refine ⟨hinv.mapped, hm, fun k v hk => ?_⟩
  rcases hnew _ hk with rfl | hold
  · exact hd
  · exact hinv.owned k v hold

theorem memoryInv_devWrite (hinv : MemoryInv s) (d : Nat) {o : Nat} (v : Byte) (ho : o < 2048) :
    MemoryInv (devWrite s d o v) := by
  rcases devWrite_cases s d o v with ⟨htag, heq⟩ | ⟨-, heq⟩ <;> rw [heq]
  · refine memoryInv_setBuf (d := d) hinv (store_wf hinv.canonical _ v) (by simp [htag, buffered]) fun c hc => ?_
    exact (mem_store hc).imp_left fun h => by simp [h, cellKey_div ho]
  · exact hinv

theorem memoryInv_devLoad (hinv : MemoryInv s) (d : Nat) {origin : Nat} {bs : List Byte}
    (hfits : origin + bs.length ≤ 2048) : MemoryInv (devLoad s d origin bs) := by
  rcases devLoad_cases s d origin bs with ⟨htag, heq⟩ | ⟨-, heq⟩ <;> rw [heq]
  · refine memoryInv_setBuf hinv (storeAll_wf hinv.canonical _ bs) htag fun c hc => ?_
    refine (mem_storeAll hc).imp_left fun h => ?_
    simp only [cellKey] at h
    omega
  · exact hinv

theorem memoryInv_change (h : MemoryChange s i t) (hinv : MemoryInv s) : MemoryInv t := by
  cases h with
  | mwr a v => exact memoryInv_devWrite hinv _ v (offsetOf _).isLt
  | install w d hphase hdev =>
    refine ⟨fun x => ?_, hinv.canonical, hinv.owned⟩
    rw [setWmap_wmapAt]
    split
    · exact hdev
    · exact hinv.mapped x
  | load d origin bs hphase hdev hfits => exact memoryInv_devLoad hinv _ hfits
  | start hphase => exact ⟨hinv.mapped, hinv.canonical, hinv.owned⟩

theorem consoleInv_of_same (hcfg : t.cfg = s.cfg) (h : SameConsole s t) (hinv : ConsoleInv s) : ConsoleInv t := by
  obtain ⟨hinq, houtw, hwait⟩ := h
  obtain ⟨h1, h2, h3, h4⟩ := hinv
  exact ⟨by rwa [hcfg, hinq], by rwa [hcfg, houtw], by rwa [houtw], by rwa [hwait, hinq]⟩

theorem lineFits_mono {c : Config} {m n : Nat} (hle : m ≤ n) (h : lineFits c n = true) : lineFits c m = true := by
  rw [lineFits_iff] at h ⊢
  exact fun k hk => hle.trans (h k hk)

/-- A console write leaves at most `DISP_N` bytes in the window, all of them printable (R43, R171). -/
theorem consoleInv_consolePut (hinv : ConsoleInv s) (v : Byte) : ConsoleInv (consolePut s v) := by
  rw [consolePut_eq_setOutw]
  refine ⟨hinv.queue, ?_, ?_, hinv.emptyInWait⟩ <;> cases hctl : isControl v
  · exact length_lastN_le _ _
  · exact Nat.zero_le _
  · intro b hb
    rcases List.mem_append.mp (mem_of_mem_lastN hb) with hold | hnew
    · exact hinv.printable b hold
    · simpa [isControl, List.mem_singleton.mp hnew] using hctl
  · simp

theorem consoleInv_change (h : ConsoleChange s i t) (hinv : ConsoleInv s) : ConsoleInv t := by
  cases h with
  | suspend port hw hq => exact ⟨hinv.queue, hinv.window, hinv.printable, fun _ => hq⟩
  | pop port b q hw hq =>
    refine ⟨lineFits_mono (by simp [hq]) hinv.queue, hinv.window, hinv.printable, fun hwait => ?_⟩
    simp [hw] at hwait
  | put port v hw => exact consoleInv_consolePut hinv v
  | line bs hw hfits =>
    exact ⟨lineFits_mono (by simp) hfits, hinv.window, hinv.printable, fun hwait => by simp at hwait⟩

/-- Every operation keeps the invariant. -/
theorem exec_keeps_inv (h : exec i s = .next t) (hinv : s.Inv) : t.Inv := by
  obtain ⟨hwf, hmem, hcon⟩ := (inv_iff s).mp hinv
  obtain ⟨hcfg, -⟩ := exec_cfg_boot h
  refine (inv_iff t).mpr ⟨hcfg ▸ hwf, ?_, ?_⟩
  · rcases exec_memory h with hsame | ⟨-, hchange⟩
    · exact memoryInv_of_same hcfg hsame hmem
    · exact memoryInv_change hchange hmem
  · rcases exec_console h with hsame | hchange
    · exact consoleInv_of_same hcfg hsame hcon
    · exact consoleInv_change hchange hcon

theorem inv_setArrivals (hinv : s.Inv) (ts : List Transaction) : (s.setArrivals ts).Inv := by
  obtain ⟨hwf, hmem, hcon⟩ := (inv_iff s).mp hinv
  obtain ⟨hm, hc⟩ := sameSides_setArrivals s ts
  have hcfg := setArrivals_cfg s ts
  exact (inv_iff _).mpr ⟨hwf, memoryInv_of_same hcfg hm hmem, consoleInv_of_same hcfg hc hcon⟩

/-- Settles O43: each side of the state keeps its half of the invariant, whatever operation is taken up. -/
theorem stepKeepsTheInvariant : Obligations.StepKeepsTheInvariant := fun _ _ hinv h =>
  step_induction (P := fun s t => s.Inv → t.Inv) (fun _ => id)
    (fun _ rest _ _ he hinv => exec_keeps_inv he (inv_setArrivals hinv rest)) h hinv

/-- Every map entry of a fresh block is device 0, which is in every table, and its store, queue and window are empty. -/
theorem inv_resetWith {c : Config} (boot : Nat) (h : c.wellFormed = true) : (State.resetWith c boot).Inv where
  config := h
  mapped w := by
    rw [resetWith_wmapAt]
    exact Nat.succ_pos _
  canonical := List.Pairwise.nil
  owned _ _ hk := by cases hk
  queue := (lineFits_iff _ _).mpr fun m _ => Nat.zero_le m
  window := Nat.zero_le _
  printable _ hb := by cases hb
  emptyInWait _ := rfl

/-- Settles O44; the reference configuration is a well-formed one. -/
theorem resetSatisfiesTheInvariant : Obligations.ResetSatisfiesTheInvariant :=
  ⟨inv_resetWith 0 (by decide), fun _ boot h => inv_resetWith boot h⟩

/-- Settles O45: the empty store has no byte of its own, so every byte is its device's free one. -/
theorem resetValuesOfTheBlock : Obligations.ResetValuesOfTheBlock := fun c boot =>
  ⟨rfl, rfl, rfl, resetWith_wmapAt c boot, fun _ _ => rfl, rfl, rfl⟩

end Sys2Proof.Proofs
end

section
/-! PROOF. Which operations change phase, map and buffers (R31, R34, R38), and that in `RUN` the topology is fixed. -/

namespace Sys2Proof.Proofs
open Sys2Proof.Machine Sys2Proof.Claims

variable {s t : State}

/-- Settles O24: of the four ways to change the memory side, `START` is the one that changes the phase. -/
theorem onlyStartChangesThePhase : Obligations.OnlyStartChangesThePhase := by
  intro s t h hne
  rcases step_memory h with ⟨hphase, -⟩ | ⟨hw, x, hx, rest, i, hd, hm⟩
  · exact absurd hphase hne
  · cases hm with
    | mwr a v => exact absurd (memWrite_phase _ _ v) hne
    | install w d hphase hdev => exact absurd rfl hne
    | load d origin bs hphase hdev hfits => exact absurd (devLoad_phase _ _ _ bs) hne
    | start hphase => exact ⟨hphase, rfl, hw, x, hx, hd⟩

/-- Settles O25: of the four ways to change the memory side, `INSTALL` is the one that changes the map. -/
theorem onlyInstallChangesTheMap : Obligations.OnlyInstallChangesTheMap := by
  intro s t h hne
  rcases step_memory h with ⟨-, hwmap, -⟩ | ⟨-, x, hx, rest, i, hd, hm⟩
  · exact absurd hwmap hne
  · cases hm with
    | mwr a v => exact absurd (memWrite_wmap _ _ v) hne
    | install w d hphase hdev =>
      exact ⟨hphase, x, hx, w, d, hd, hdev, fun y => setWmap_wmapAt (s.setArrivals rest) w y d⟩
    | load d origin bs hphase hdev hfits => exact absurd (devLoad_wmap _ _ _ bs) hne
    | start hphase => exact absurd rfl hne

/-- A byte that a bus write changes is the byte its address decodes to, in a `RW` device, and is the value written. -/
theorem memWrite_changes {a : Addr} {v : Byte} {d o : Nat} (ho : o < 2048)
    (hne : bufByte (memWrite s a.toNat v) d o ≠ bufByte s d o) :
    tagOf s.cfg d = .rw ∧ deviceAt s a = d ∧ (offsetOf a).toNat = o ∧ bufByte (memWrite s a.toNat v) d o = v := by
  have heq := bufByte_devWrite s (deviceAt s a) d v (offsetOf a).isLt ho
  simp only [memWrite, reduceAddr_toNat] at hne ⊢
  split at heq
  · next hc =>
    obtain ⟨rfl, rfl, htag⟩ := hc
    exact ⟨htag, rfl, rfl, heq⟩
  · exact absurd heq hne

/-- A byte that a load changes lies in the range of a buffered device, and is the byte of the sequence that goes there. -/
theorem devLoad_changes {e origin d o : Nat} {bs : List Byte} (hfits : origin + bs.length ≤ 2048) (ho : o < 2048)
    (hne : bufByte (devLoad s e origin bs) d o ≠ bufByte s d o) :
    e = d ∧ tagOf s.cfg d ≠ .unmapped ∧ origin ≤ o ∧ o < origin + bs.length ∧
      bs[o - origin]? = some (bufByte (devLoad s e origin bs) d o) := by
  have hrange : d = e ∧ origin ≤ o ∧ o < origin + bs.length := by
    by_contra hout
    exact hne (bufByte_devLoad_outside s hfits ho hout)
  obtain ⟨rfl, hlo, hhi⟩ := hrange
  have htag : tagOf s.cfg d ≠ .unmapped := by
    intro hun
    exact hne (by simp [devLoad, hun, buffered])
  have hbyte := bufByte_devLoad_inside htag origin bs (i := o - origin) (by omega)
  rw [Nat.add_sub_cancel' hlo] at hbyte
  exact ⟨rfl, htag, hlo, hhi, by rw [hbyte]; exact List.getElem?_eq_getElem _⟩

/-- Settles O26: of the four ways to change the memory side, `MWR` and `LOAD` are the ones that change the store. -/
theorem onlyMwrAndLoadChangeBuffers : Obligations.OnlyMwrAndLoadChangeBuffers := by
  intro s t d o h ho hne
  rcases step_memory h with ⟨-, -, hbuf⟩ | ⟨-, x, hx, rest, i, hd, hm⟩
  · exact absurd (bufByte_congr (step_cfg_boot h).2 hbuf d o) hne
  · refine ⟨x, hx, ?_⟩
    cases hm with
    | mwr a v => exact .inl ⟨a, v, hd, memWrite_changes (s := s.setArrivals rest) ho hne⟩
    | install w e hphase hdev => exact absurd rfl hne
    | load e origin bs hphase hdev hfits =>
      exact .inr ⟨e, origin, bs, hd, hphase, devLoad_changes (s := s.setArrivals rest) hfits ho hne⟩
    | start hphase => exact absurd rfl hne

/-- A step in `RUN` changes neither phase nor map nor configuration. -/
theorem step_topology (h : step s = .next t) (hrun : s.phase = .run) :
    t.phase = .run ∧ t.wmap = s.wmap ∧ t.cfg = s.cfg := by
  have hsetup : s.phase ≠ .setup := by simp [hrun]
  refine ⟨?_, ?_, (step_cfg_boot h).1⟩
  · by_contra hne
    exact hsetup (onlyStartChangesThePhase s t h (hrun ▸ hne)).1
  · by_contra hne
    exact hsetup (onlyInstallChangesTheMap s t h hne).1

/-- Settles O27: along a run every step keeps the topology of `RUN`, and no agent's move touches it. -/
theorem topologyIsFixedInRun : Obligations.TopologyIsFixedInRun := fun _ _ =>
  run_induction (P := fun s t => s.phase = .run → t.phase = .run ∧ t.wmap = s.wmap ∧ t.cfg = s.cfg)
    (fun _ hrun => ⟨hrun, rfl, rfl⟩)
    (fun _ _ _ ih h hrun => by
      obtain ⟨hphase, hwmap, hcfg⟩ := ih hrun
      obtain ⟨hphase', hwmap', hcfg'⟩ := step_topology h hphase
      exact ⟨hphase', hwmap'.trans hwmap, hcfg'.trans hcfg⟩)
    (fun _ _ _ ih _ => ih) (fun _ _ _ _ ih => ih)

end Sys2Proof.Proofs
end

section
/-! PROOF. Reads and writes through windows (R39, R47), the order in which a line is read (R178), the separation of
memory and console (R30), and the tag bits (R40). -/

namespace Sys2Proof.Proofs
open Sys2Proof.Machine Sys2Proof.Claims

variable {s : State}

/-- A `RW` device answers the byte just written (R140, R141). -/
theorem devRead_devWrite_same {d o : Nat} (htag : tagOf s.cfg d = .rw) (ho : o < 2048) (v : Byte) :
    devRead (devWrite s d o v) d o = v := by
  rw [devRead_of_ne_unmapped (by simp [htag]), bufByte_devWrite s d d v ho ho]
  simp [htag]

/-- Settles O17: both windows lead to one device, so to one byte. -/
theorem aliasedWindowsShareTheirBytes : Obligations.AliasedWindowsShareTheirBytes := by
  intro s w x o v hdev
  refine ⟨by rw [memRead_addrOf, memRead_addrOf, hdev], fun hw htag => ⟨_, exec_mwr_next hw _ v, ?_⟩⟩
  rw [memRead_addrOf, wmapAt_of_wmap_eq (memWrite_wmap _ _ v), memWrite_addrOf, ← hdev]
  exact devRead_devWrite_same htag o.isLt v

/-- Settles O47: the device answers its buffer byte, and the store lists none. -/
theorem unloadedByteReadsItsFreeImage : Obligations.UnloadedByteReadsItsFreeImage := by
  intro s w o hw htag hnone
  rw [exec_mrd_next hw, memRead_addrOf, devRead_of_ne_unmapped htag, bufByte, hnone]
  rfl

/-- As many reads as bytes are queued, each on whatever port, take the whole queue front first (R42, R170). -/
theorem execAll_iords {s : State} {ports : List PortNum} {q : List Byte} (hw : s.wait = false) (hq : s.inq = q)
    (hlen : ports.length = q.length) :
    execAll (ports.map Instr.iord) s = .next { s with inq := [], cRsp := s.cRsp ++ q } := by
  induction ports generalizing s q with
  | nil =>
    obtain rfl := List.eq_nil_of_length_eq_zero hlen.symm
    rw [List.append_nil, ← hq]
    rfl
  | cons port ports ih =>
    cases q with
    | nil => simp at hlen
    | cons b q =>
      rw [List.map_cons, execAll_cons_of_next _ (exec_iord_front hw hq port),
        ih (s := (s.setInq q).respondCpu b) hw rfl (by simpa using hlen)]
      simp [State.setInq, State.respondCpu]

/-- Settles O35: the line answers the suspended read with its first character and queues the others for the reads. -/
theorem lineIsReadInOrder : Obligations.LineIsReadInOrder := by
  intro s c rest ports port hw hlen hbound
  refine ⟨?_, exec_iord_suspends rfl rfl port⟩
  rw [execAll_cons_of_next _ (exec_line_next hw ((lineFits_iff _ _).mpr hbound)), refill_eq_cons, completeRead_cons,
    execAll_iords (q := rest) rfl rfl hlen]
  simp [State.setInq, State.setWait, State.respondCpu]

theorem devWrite_withConsole (s : State) (q o : List Byte) (d p : Nat) (v : Byte) :
    devWrite { s with inq := q, outw := o } d p v = { devWrite s d p v with inq := q, outw := o } := by
  simp only [devWrite]
  split <;> rfl

theorem devLoad_withConsole (s : State) (q o : List Byte) (d origin : Nat) (bs : List Byte) :
    devLoad { s with inq := q, outw := o } d origin bs = { devLoad s d origin bs with inq := q, outw := o } := by
  simp only [devLoad]
  split <;> rfl

/-- The outcome of a bus or setup operation does not depend on queue and window, which it carries along. -/
theorem exec_withConsole (s : State) (q o : List Byte) (a : Addr) (v : Byte) (w : WinIx) (d : DevIx) (origin : Offset)
    (bs : List Byte) : ∀ i ∈ [Instr.mrd a, .mwr a v, .install w d, .load d origin bs, .start],
      exec i { s with inq := q, outw := o } = mapNext (fun t => { t with inq := q, outw := o }) (exec i s) := by
  simp only [List.forall_mem_cons]
  refine ⟨?_, ?_, ?_, ?_, ?_, by simp⟩
  · simp only [exec, execMrd]
    split <;> rfl
  · simp only [exec, execMwr]
    split
    · rfl
    · exact congrArg _ (devWrite_withConsole s q o (deviceAt s (reduceAddr a.toNat)) _ v)
  · simp only [exec, execInstall]
    split_ifs <;> rfl
  · simp only [exec, execLoad]
    split_ifs
    · rfl
    · rfl
    · exact congrArg _ (devLoad_withConsole s q o d.toNat origin.toNat bs)
    · rfl
    · rfl
  · simp only [exec, execStart]
    split_ifs <;> rfl

/-- The outcome of a console operation does not depend on phase, map and buffers, which it carries along. -/
theorem exec_withMemory (s : State) (p : Phase) (m : Vector DevIx 32) (b : Memory) (port : PortNum) (v : Byte)
    (bs : List Byte) : ∀ i ∈ [Instr.iord port, .iowr port v, .line bs, .disp],
      exec i { s with phase := p, wmap := m, buf := b } =
        mapNext (fun t => { t with phase := p, wmap := m, buf := b }) (exec i s) := by
  simp only [List.forall_mem_cons]
  refine ⟨?_, ?_, ?_, ?_, by simp⟩
  · obtain ⟨_, _, _, _, _, inq, _, wait, _, _, _⟩ := s
    cases wait
    · cases inq <;> rfl
    · rfl
  · simp only [exec, execIowr, consolePut_eq_setOutw]
    split_ifs <;> rfl
  · simp only [exec, execLine, refill_eq_cons, completeRead_cons]
    split_ifs <;> rfl
  · rfl

/-- Settles O40: no side is seen by the operations of the other, and none changes it. -/
theorem memoryAndConsoleAreSeparate : Obligations.MemoryAndConsoleAreSeparate := by
  refine ⟨fun s q o a v w d origin bs i hi => ⟨exec_withConsole s q o a v w d origin bs i hi, fun t ht => ?_⟩,
    fun s p m b port v bs i hi => ⟨exec_withMemory s p m b port v bs i hi, fun t ht => ?_⟩⟩
  · rcases exec_console ht with hsame | hchange
    · exact hsame
    · cases hchange <;> simp at hi
  · rcases exec_memory ht with hsame | ⟨-, hchange⟩
    · exact hsame
    · cases hchange <;> simp at hi

/-- Settles O49, tag by tag. -/
theorem tagBitsAreTheGates : Obligations.TagBitsAreTheGates := by
  refine ⟨rfl, rfl, rfl, by decide, fun g => ?_⟩
  cases g <;> decide

end Sys2Proof.Proofs
end

section
/-! PROOF. Addresses as window and offset (R62, R63), and the taking up of the oldest transaction (R76, R204). -/

namespace Sys2Proof.Proofs
open Sys2Proof.Machine Sys2Proof.Claims

variable {s : State}

/-! Addresses. -/

/-- An address is the join of its window and its offset (R63). -/
@[simp] theorem addrOf_windowOf_offsetOf (a : Addr) : addrOf (windowOf a) (offsetOf a) = a := by
  apply BitVec.eq_of_toNat_eq
  rw [addrOf, toNat_append_add, windowOf_toNat, offsetOf_toNat]
  omega

/-- Settles O10: joining a window and an offset is inverse to the decode of an address, on both sides. -/
theorem addressSplitsIntoWindowAndOffset : Obligations.AddressSplitsIntoWindowAndOffset := by
  refine ⟨fun a => ⟨?_, ?_, ?_⟩, fun w o => ⟨addrOf w o, ⟨windowOf_addrOf w o, offsetOf_addrOf w o⟩, ?_⟩⟩
  · rw [windowOf_toNat, Nat.shiftRight_eq_div_pow]
  · rw [offsetOf_toNat]
    exact (Nat.and_two_pow_sub_one_eq_mod a.toNat 11).symm
  · rw [← BitVec.toNat_append]
    exact congrArg BitVec.toNat (addrOf_windowOf_offsetOf a).symm
  · rintro a ⟨rfl, rfl⟩
    exact (addrOf_windowOf_offsetOf a).symm

/-- The reduction of an integer keeps its low 16 bits in two's complement (R62). -/
theorem reduceAddr_eq_ofInt (a : Int) : reduceAddr a = BitVec.ofInt 16 a := by
  apply BitVec.eq_of_toNat_eq
  have h := reduceAddr_toNat_int a
  rw [BitVec.toNat_ofInt]
  omega

/-- Settles O11: primitives and assembler see an integer address only through its reduction. -/
theorem addressesWrapAtSixteenBits : Obligations.AddressesWrapAtSixteenBits := by
  refine ⟨fun s a v => ⟨reduceAddr_toNat_int a, reduceAddr_eq_ofInt a, ?_, ?_, ?_, ?_, (windowOf _).isLt⟩,
    by decide, by decide, by decide⟩
  · simp only [memRead, reduceAddr_emod]
  · simp only [memWrite, reduceAddr_emod]
  · simp only [asmMrd, reduceAddr_emod]
  · simp only [asmMwr, reduceAddr_emod]

/-! Taking up transactions. -/

/-- A step executes the operation of the transaction that is taken up (R76). -/
theorem step_of_takeUp {t : Transaction} {rest : List Transaction} {i : Instr} (hc : s.cfg.wellFormed = true)
    (hu : takeUp s.wait [] s.arrivals = some (t, rest)) (hd : decode t = .op i) :
    step s = exec i (s.setArrivals rest) := by
  simp [step, fetch, hc, hu, hd]

/-- A transaction does not hold when no read is suspended or its operation goes on during a wait (R204). -/
theorem holding_eq_false {t : Transaction} {i : Instr} (hd : decode t = .op i) {wait : Bool}
    (h : wait = false ∨ holdsInWait i = false) : holding wait t = false := by
  rcases h with h | h <;> simp [holding, hd, h]

/-- Settles O5: on free ports the oldest transaction is the one taken up, unless it holds. -/
theorem stepRunsTheOldestTransaction : Obligations.StepRunsTheOldestTransaction := by
  intro s t rest i hc harr hd hnot
  refine step_of_takeUp hc ?_ hd
  rw [harr]
  exact takeUp_cons_of_not_holding rest List.not_mem_nil (holding_eq_false hd hnot)

/-- What a table word decodes to is what its transaction decodes to. -/
theorem decodeTableWord_eq_some {nbits w : Nat} {i : Instr} (h : decodeTableWord nbits w = some i) :
    decode (tableTransaction nbits w) = .op i := by
  unfold decodeTableWord at h
  split at h
  · next j hj => rw [hj, Option.some.inj h]
  · cases h

/-- Settles O9: a placed word is the oldest transaction, and taking it out restores the state it was placed in. -/
theorem stepRunsThePlacedWord : Obligations.StepRunsThePlacedWord := fun s nbits w i hc hw hd =>
  stepRunsTheOldestTransaction (s.withFetchWord nbits w) _ s.arrivals i hc rfl (decodeTableWord_eq_some hd) (.inl hw)

/-- While a read is suspended every operation but `LINE` and `DISP` is held (R204). -/
theorem exec_of_holds {i : Instr} (hw : s.wait = true) (hi : holdsInWait i = true) : exec i s = hold i s := by
  cases i with
  | mrd addr => exact if_pos hw
  | mwr addr value => exact if_pos hw
  | iord port => exact if_pos hw
  | iowr port value => exact if_pos hw
  | install w d => exact if_pos hw
  | load d origin bytes => exact if_pos hw
  | start => exact if_pos hw
  | line bytes => cases hi
  | disp => cases hi

/-- Settles O34: the two outcomes differ in the transaction a hold puts back, and a hold needs a suspended read. -/
theorem portNumberIsIgnored : Obligations.PortNumberIsIgnored := by
  intro s p q v
  cases hw : s.wait with
  | false =>
    have hread : exec (.iord p) s = exec (.iord q) s := by simp [exec, execIord, hw]
    have hwrite : exec (.iowr p v) s = exec (.iowr q v) s := by simp [exec, execIowr, hw]
    exact ⟨congrArg _ hread, congrArg _ hwrite, fun _ => ⟨hread, hwrite⟩⟩
  | true =>
    have hread (port : PortNum) : exec (.iord port) s = hold (.iord port) s := exec_of_holds hw rfl
    have hwrite (port : PortNum) : exec (.iowr port v) s = hold (.iowr port v) s := exec_of_holds hw rfl
    rw [hread p, hread q, hwrite p, hwrite q]
    exact ⟨rfl, rfl, fun h => by cases h⟩

end Sys2Proof.Proofs
end

section
/-! PROOF. Reads after writes on the bus (R70, R75, R121), and write protection along a run (R73). -/

namespace Sys2Proof.Proofs
open Sys2Proof.Machine Sys2Proof.Claims

variable {s t : State}

/-! What a device answers. -/

/-- A device answers its buffer byte where its tag lets reads through, and the sentinel otherwise (R140). -/
theorem devRead_eq (s : State) (d o : Nat) :
    devRead s d o = if readsPass (tagOf s.cfg d) then bufByte s d o else s.cfg.sentinel := rfl

/-- What a device answers at an offset depends on the configuration and its byte there only. -/
theorem devRead_of_bufByte_eq {d o : Nat} (hcfg : t.cfg = s.cfg) (h : bufByte t d o = bufByte s d o) :
    devRead t d o = devRead s d o := by
  rw [devRead_eq, devRead_eq, hcfg, h]

/-- What every device answers after a device write (R140, R141). -/
theorem devRead_devWrite (s : State) (d e : Nat) {o p : Nat} (v : Byte) (ho : o < 2048) (hp : p < 2048) :
    devRead (devWrite s d o v) e p = if e = d ∧ p = o ∧ tagOf s.cfg d = .rw then v else devRead s e p := by
  split
  · next h =>
    obtain ⟨rfl, rfl, htag⟩ := h
    exact devRead_devWrite_same htag ho v
  · next h =>
    refine devRead_of_bufByte_eq (devWrite_cfg s d o v) ?_
    rw [bufByte_devWrite s d e v ho hp, if_neg h]

/-- Writing one value twice to a device is writing it once, in the whole state (R70). -/
theorem devWrite_devWrite_same (s : State) (d o : Nat) (v : Byte) :
    devWrite (devWrite s d o v) d o v = devWrite s d o v := by
  rcases devWrite_cases s d o v with ⟨htag, heq⟩ | ⟨-, heq⟩
  · rw [heq]
    simp [devWrite, htag, writesPass, State.setBuf]
  · rw [heq, heq]

/-! Bus writes. -/

/-- A bus access selects one byte of one device (R66, R67). -/
theorem memRead_toNat (s : State) (a : Addr) : memRead s a.toNat = devRead s (deviceAt s a) (offsetOf a).toNat := by
  simp only [memRead, reduceAddr_toNat]

theorem memWrite_toNat (s : State) (a : Addr) (v : Byte) :
    memWrite s a.toNat v = devWrite s (deviceAt s a) (offsetOf a).toNat v := by
  simp only [memWrite, reduceAddr_toNat]

/-- A bus write changes nothing but buffers (R121). -/
theorem memWrite_eq_withBuf (s : State) (addr : Int) (v : Byte) :
    memWrite s addr v = { s with buf := (memWrite s addr v).buf } := by
  obtain ⟨m, hm⟩ := memWrite_eq_setBuf s addr v
  rw [hm]
  rfl

@[simp] theorem memWrite_wait (s : State) (addr : Int) (v : Byte) : (memWrite s addr v).wait = s.wait := by
  rw [memWrite_eq_withBuf]

@[simp] theorem memWrite_cfg (s : State) (addr : Int) (v : Byte) : (memWrite s addr v).cfg = s.cfg := by
  rw [memWrite_eq_withBuf]

@[simp] theorem memWrite_deviceAt (s : State) (addr : Int) (v : Byte) (a : Addr) :
    deviceAt (memWrite s addr v) a = deviceAt s a := by
  rw [deviceAt, wmapAt_of_wmap_eq (memWrite_wmap s addr v), deviceAt]

/-- A write moves no byte: what lands where is as it was. -/
@[simp] theorem memWrite_lands (s : State) (addr : Int) (v : Byte) : lands (memWrite s addr v) = lands s := by
  funext x a
  simp [lands]

/-- Writing one value twice to an address is writing it once, in the whole state (R70). -/
theorem memWrite_memWrite_same (s : State) (a : Addr) (v : Byte) :
    memWrite (memWrite s a.toNat v) a.toNat v = memWrite s a.toNat v := by
  rw [memWrite_toNat (memWrite s a.toNat v), memWrite_deviceAt, memWrite_toNat, devWrite_devWrite_same]

/-- A read after a write gives the value written where the write lands on its byte, and the old byte otherwise (R75). -/
theorem memRead_memWrite (s : State) (x a : Addr) (v : Byte) :
    memRead (memWrite s x.toNat v) a.toNat = if lands s x a then v else memRead s a.toNat := by
  have hlands : lands s x a = true ↔ deviceAt s a = deviceAt s x ∧ (offsetOf a).toNat = (offsetOf x).toNat ∧
      tagOf s.cfg (deviceAt s x) = .rw := by
    simp only [lands, decide_eq_true_eq, BitVec.toNat_inj]
    tauto
  rw [memRead_toNat, memWrite_deviceAt, memWrite_toNat, devRead_devWrite _ _ _ _ (offsetOf x).isLt (offsetOf a).isLt,
    memRead_toNat]
  simp only [hlands]

/-- Writing the value that a read of the address gives leaves every buffer byte as it was (R121 (f)). -/
theorem bufByte_memWrite_memRead {a : Addr} {v : Byte} (hv : memRead s a.toNat = v) (d : Nat) {o : Nat}
    (ho : o < 2048) : bufByte (memWrite s a.toNat v) d o = bufByte s d o := by
  by_contra hne
  obtain ⟨htag, rfl, rfl, hnew⟩ := memWrite_changes ho hne
  rw [memRead_toNat, devRead_of_ne_unmapped (by simp [htag])] at hv
  exact hne (hnew.trans hv.symm)

/-- Settles O15: the only byte the write can change gets the value it has. -/
theorem rewritingAByteChangesNothing : Obligations.RewritingAByteChangesNothing := by
  intro s t a v hw h
  obtain rfl : memWrite s a.toNat v = t := Host.Outcome.next.inj ((exec_mwr_next hw a v).symm.trans h)
  refine ⟨?_, fun hv d o ho => bufByte_memWrite_memRead hv d ho⟩
  rw [exec_mwr_next ((memWrite_wait s _ v).trans hw), memWrite_memWrite_same]

/-- Writes in sequence complete, change nothing but buffers, and leave each address at the value of the latest write
that landed on its byte, or failing any at what it was (R75). -/
theorem execAll_writes (s : State) (ws : List (Addr × Byte)) (hw : s.wait = false) :
    ∃ t, execAll (writes ws) s = .next t ∧ t = { s with buf := t.buf } ∧
      ∀ a : Addr, memRead t a.toNat = ws.foldl (fun v x => if lands s x.1 a then x.2 else v) (memRead s a.toNat) := by
  induction ws generalizing s with
  | nil => exact ⟨s, rfl, rfl, fun _ => rfl⟩
  | cons x ws ih =>
    obtain ⟨t, ht, hframe, hread⟩ := ih (memWrite s x.1.toNat x.2) ((memWrite_wait s _ _).trans hw)
    refine ⟨t, (execAll_cons_of_next _ (exec_mwr_next hw x.1 x.2)).trans ht, ?_, fun a => ?_⟩
    · rw [memWrite_eq_withBuf] at hframe
      exact hframe
    · rw [hread, memRead_memWrite, memWrite_lands]
      rfl

/-- Settles O16: the read after the writes completes, no write having suspended one or responded. -/
theorem readReturnsTheMostRecentWrite : Obligations.ReadReturnsTheMostRecentWrite := by
  intro s ws a hw
  obtain ⟨t, ht, hframe, hread⟩ := execAll_writes s ws hw
  have hwait : t.wait = false := by rw [hframe]; exact hw
  have hrsp : t.cRsp = s.cRsp := by rw [hframe]
  refine ⟨t, ht, hframe, ?_⟩
  rw [exec_mrd_next hwait, hread, ← hrsp]
  rfl

/-! Write protection. -/

/-- In `RUN` the one operation that changes a buffer byte is `MWR`, and it reaches `RW` devices only (R38, R73). -/
theorem step_devRead_protected {d o : Nat} (h : step s = .next t) (hrun : s.phase = .run) (ho : o < 2048)
    (htag : tagOf s.cfg d ≠ .rw) : devRead t d o = devRead s d o := by
  refine devRead_of_bufByte_eq (step_cfg_boot h).1 ?_
  by_contra hne
  obtain ⟨x, -, ⟨a, v, -, hrw, -⟩ | ⟨e, origin, bs, -, hsetup, -⟩⟩ := onlyMwrAndLoadChangeBuffers s t d o h ho hne
  · exact htag hrw
  · simp [hrun] at hsetup

/-- What a run from `RUN` keeps: the phase, the configuration, and what the device answers at the offset. -/
def Protected (d o : Nat) (s t : State) : Prop :=
  t.phase = .run ∧ t.cfg = s.cfg ∧ devRead t d o = devRead s d o

/-- A step keeps what the run up to it has kept of a device that is not `RW`. -/
theorem protected_step {d o : Nat} {u : State} (hp : Protected d o s t) (h : step t = .next u) (ho : o < 2048)
    (htag : tagOf s.cfg d ≠ .rw) : Protected d o s u := by
  obtain ⟨hrun, hcfg, hread⟩ := hp
  obtain ⟨hrun', -, hcfg'⟩ := step_topology h hrun
  exact ⟨hrun', hcfg'.trans hcfg, (step_devRead_protected h hrun ho (hcfg ▸ htag)).trans hread⟩

/-- Settles O28: along a run from `RUN` every step keeps the protection, and no agent's move touches a buffer. -/
theorem romNeverChangesInRun : Obligations.RomNeverChangesInRun := by
  intro s t d o hr hrun ho htag
  have hprotected : s.phase = .run → tagOf s.cfg d ≠ .rw → Protected d o s t :=
    run_induction (P := fun s t => s.phase = .run → tagOf s.cfg d ≠ .rw → Protected d o s t)
      (fun _ hrun _ => ⟨hrun, rfl, rfl⟩)
      (fun _ _ _ ih h hrun htag => protected_step (ih hrun htag) h ho htag)
      (fun _ _ _ ih _ => ih) (fun _ _ _ _ ih => ih) hr
  obtain ⟨-, -, hread⟩ := hprotected hrun htag
  exact hread

end Sys2Proof.Proofs
end

section
/-! PROOF. Decoding and encoding as inverse to each other (R91 to R103), and the words that spell nothing (R101). -/

namespace Sys2Proof.Proofs
open Sys2Proof.Machine Sys2Proof.Claims

variable {t : Transaction} {i : Instr}

/-! An encoded word, field by field. -/

/-- A field of a word is two joined ones when each of them is the part that stands in its place. -/
theorem field_eq_append_iff (w : Word) (lo : Nat) {m n : Nat} (x : BitVec m) (y : BitVec n) :
    w.extractLsb' lo (m + n) = x ++ y ↔ w.extractLsb' (lo + n) m = x ∧ w.extractLsb' lo n = y := by
  constructor
  · intro h
    constructor
    · rw [← append_high x y, ← h]
      ext i hi
      simp [Nat.add_assoc]
      omega
    · rw [← append_low x y, ← h]
      ext i hi
      simp
      omega
  · rintro ⟨rfl, rfl⟩
    ext i hi
    simp only [BitVec.getElem_append, BitVec.getElem_extractLsb']
    split
    · rfl
    · congr 1; omega

/-- A word is its own field of all 32 bits. -/
theorem eq_word_iff (w x : Word) : x = w ↔ w.extractLsb' 0 32 = x := by
  rw [BitVec.extractLsb'_eq_self, eq_comm]

theorem encode_mrd_word_iff (w : Word) (a : Addr) : (encode (.mrd a)).word = w ↔
    opField w = 0x0#4 ∧ w.extractLsb' 24 4 = 0#4 ∧ w.extractLsb' 8 16 = a ∧ w.extractLsb' 0 8 = 0#8 := by
  refine (eq_word_iff w _).trans ?_
  change w.extractLsb' 0 (4 + 4 + 16 + 8) = 0x0#4 ++ 0#4 ++ a ++ 0#8 ↔ _
  rw [field_eq_append_iff, field_eq_append_iff, field_eq_append_iff, and_assoc, and_assoc, opField]

theorem encode_mwr_word_iff (w : Word) (a : Addr) (v : Byte) : (encode (.mwr a v)).word = w ↔
    opField w = 0x1#4 ∧ w.extractLsb' 24 4 = 0#4 ∧ w.extractLsb' 8 16 = a ∧ w.extractLsb' 0 8 = v := by
  refine (eq_word_iff w _).trans ?_
  change w.extractLsb' 0 (4 + 4 + 16 + 8) = 0x1#4 ++ 0#4 ++ a ++ v ↔ _
  rw [field_eq_append_iff, field_eq_append_iff, field_eq_append_iff, and_assoc, and_assoc, opField]

theorem encode_iord_word_iff (w : Word) (port : PortNum) : (encode (.iord port)).word = w ↔
    opField w = 0x2#4 ∧ w.extractLsb' 24 4 = 0#4 ∧ w.extractLsb' 8 16 = port ∧ w.extractLsb' 0 8 = 0#8 := by
  refine (eq_word_iff w _).trans ?_
  change w.extractLsb' 0 (4 + 4 + 16 + 8) = 0x2#4 ++ 0#4 ++ port ++ 0#8 ↔ _
  rw [field_eq_append_iff, field_eq_append_iff, field_eq_append_iff, and_assoc, and_assoc, opField]

theorem encode_iowr_word_iff (w : Word) (port : PortNum) (v : Byte) : (encode (.iowr port v)).word = w ↔
    opField w = 0x3#4 ∧ w.extractLsb' 24 4 = 0#4 ∧ w.extractLsb' 8 16 = port ∧ w.extractLsb' 0 8 = v := by
  refine (eq_word_iff w _).trans ?_
  change w.extractLsb' 0 (4 + 4 + 16 + 8) = 0x3#4 ++ 0#4 ++ port ++ v ↔ _
  rw [field_eq_append_iff, field_eq_append_iff, field_eq_append_iff, and_assoc, and_assoc, opField]

theorem encode_install_word_iff (w : Word) (x : WinIx) (d : DevIx) : (encode (.install x d)).word = w ↔
    opField w = 0x4#4 ∧ w.extractLsb' 13 15 = 0#15 ∧ w.extractLsb' 8 5 = x ∧ w.extractLsb' 5 3 = 0#3 ∧
      w.extractLsb' 0 5 = d := by
  refine (eq_word_iff w _).trans ?_
  change w.extractLsb' 0 (4 + 15 + 5 + 3 + 5) = 0x4#4 ++ 0#15 ++ x ++ 0#3 ++ d ↔ _
  rw [field_eq_append_iff, field_eq_append_iff, field_eq_append_iff, field_eq_append_iff, and_assoc, and_assoc,
    and_assoc, opField]

theorem encode_load_word_iff (w : Word) (d : DevIx) (o : Offset) (bs : List Byte) : (encode (.load d o bs)).word = w ↔
    opField w = 0x5#4 ∧ w.extractLsb' 23 5 = d ∧ w.extractLsb' 12 11 = o ∧
      w.extractLsb' 0 12 = BitVec.ofNat 12 bs.length := by
  refine (eq_word_iff w _).trans ?_
  change w.extractLsb' 0 (4 + 5 + 11 + 12) = 0x5#4 ++ d ++ o ++ BitVec.ofNat 12 bs.length ↔ _
  rw [field_eq_append_iff, field_eq_append_iff, field_eq_append_iff, and_assoc, and_assoc, opField]

theorem encode_start_word_iff (w : Word) : (encode .start).word = w ↔
    opField w = 0x6#4 ∧ w.extractLsb' 0 28 = 0#28 := by
  refine (eq_word_iff w _).trans ?_
  change w.extractLsb' 0 (4 + 28) = 0x6#4 ++ 0#28 ↔ _
  rw [field_eq_append_iff, opField]

theorem encode_line_word_iff (w : Word) (bs : List Byte) : (encode (.line bs)).word = w ↔
    opField w = 0x8#4 ∧ w.extractLsb' 16 12 = 0#12 ∧ w.extractLsb' 0 16 = BitVec.ofNat 16 bs.length := by
  refine (eq_word_iff w _).trans ?_
  change w.extractLsb' 0 (4 + 12 + 16) = 0x8#4 ++ 0#12 ++ BitVec.ofNat 16 bs.length ↔ _
  rw [field_eq_append_iff, field_eq_append_iff, and_assoc, opField]

theorem encode_disp_word_iff (w : Word) : (encode .disp).word = w ↔
    opField w = 0x9#4 ∧ w.extractLsb' 0 28 = 0#28 := by
  refine (eq_word_iff w _).trans ?_
  change w.extractLsb' 0 (4 + 28) = 0x9#4 ++ 0#28 ↔ _
  rw [field_eq_append_iff, opField]

/-! The opcode. -/

/-- The opcode map (R97). -/
def opcodeOf : Instr → BitVec 4
  | .mrd _ => 0x0#4
  | .mwr _ _ => 0x1#4
  | .iord _ => 0x2#4
  | .iowr _ _ => 0x3#4
  | .install _ _ => 0x4#4
  | .load _ _ _ => 0x5#4
  | .start => 0x6#4
  | .line _ => 0x8#4
  | .disp => 0x9#4

theorem opField_encode (i : Instr) : opField (encode i).word = opcodeOf i := by
  cases i with
  | mrd a => exact ((encode_mrd_word_iff _ a).mp rfl).1
  | mwr a v => exact ((encode_mwr_word_iff _ a v).mp rfl).1
  | iord port => exact ((encode_iord_word_iff _ port).mp rfl).1
  | iowr port v => exact ((encode_iowr_word_iff _ port v).mp rfl).1
  | install w d => exact ((encode_install_word_iff _ w d).mp rfl).1
  | load d o bs => exact ((encode_load_word_iff _ d o bs).mp rfl).1
  | start => rfl
  | line bs => exact ((encode_line_word_iff _ bs).mp rfl).1
  | disp => rfl

/-- The decoder reads the operation from the opcode alone. -/
theorem opField_of_operandsOf {w : Word} {payload : List Byte} (h : operandsOf w payload = some i) :
    opField w = opcodeOf i := by
  unfold operandsOf at h
  split_ifs at h <;> cases h <;> assumption

/-- Every opcode that is not reserved is an operation's (R97, R101). -/
theorem exists_operandsOf {w : Word} (h : reservedOp w = false) (payload : List Byte) :
    ∃ i, operandsOf w payload = some i := by
  unfold operandsOf
  split_ifs
  iterate 9 exact ⟨_, rfl⟩
  simp only [reservedOp, Bool.or_eq_false_iff, decide_eq_false_iff_not] at h
  bv_omega

theorem reservedOp_of_opcode {w : Word} (h : opField w = opcodeOf i) : reservedOp w = false := by
  rw [reservedOp, h]
  cases i <;> rfl

/-- A word names a port by the number in `OP[3:2]` (R98). -/
theorem portField_eq_some_iff (w : Word) (p : Port) : portField w = some p ↔ w.toNat / 2 ^ 28 / 4 = portNumber p := by
  rw [portField_eq, show w.toNat / 2 ^ 28 / 4 = w.toNat / 2 ^ 30 by omega]
  match w.toNat / 2 ^ 30 with
  | 0 => cases p <;> simp [portNumber]
  | 1 => cases p <;> simp [portNumber]
  | 2 => cases p <;> simp [portNumber]
  | n + 3 => cases p <;> simp [portNumber]

/-- The opcode names the operation's port (R98). -/
theorem portField_of_opcode {w : Word} (h : opField w = opcodeOf i) : portField w = some (encode i).port := by
  rw [portField_eq_some_iff, ← opField_toNat, h]
  cases i <;> simp [opcodeOf, encode, portNumber]

/-! Decoding. -/

/-- A transaction decodes to the operation whose operands it carries, when it passes the checks before that. -/
theorem decode_eq_op_iff : decode t = .op i ↔
    portField t.word = some t.port ∧ zeroBitsClear t.word = true ∧ t.payload.length = payloadLen t.word ∧
      operandsOf t.word t.payload = some i := by
  constructor
  · intro h
    unfold decode at h
    split_ifs at h with hres hport hzero hlen
    split at h
    · next j hj =>
      cases h
      exact ⟨not_not.mp hport, hzero, (hasLength_iff _ _).mp hlen, hj⟩
    · cases h
  · rintro ⟨hport, hzero, hlen, hops⟩
    have hres := reservedOp_of_opcode (opField_of_operandsOf hops)
    simp [decode, hres, hport, hzero, (hasLength_iff _ _).mpr hlen, hops]

/-- A length is announced by its field exactly when it fits the field. -/
theorem length_eq_toNat_iff {k : Nat} (n : Nat) (x : BitVec k) : n = x.toNat ↔ n < 2 ^ k ∧ x = BitVec.ofNat k n := by
  constructor
  · rintro rfl
    exact ⟨x.isLt, by simp⟩
  · rintro ⟨hn, rfl⟩
    rw [BitVec.toNat_ofNat, Nat.mod_eq_of_lt hn]

/-- A word with its zero bits clear and its announced payload is the encoding of the operation whose operands it
carries, and of no other: every field of a format is an operand, a required zero or the length (R103). -/
theorem carries_iff_encode (w : Word) (payload : List Byte) (i : Instr) :
    (zeroBitsClear w = true ∧ payload.length = payloadLen w ∧ operandsOf w payload = some i) ↔
      i.wellFormed = true ∧ (encode i).word = w ∧ (encode i).payload = payload := by
  by_cases hop : opField w = opcodeOf i
  · cases i
    all_goals
      simp only [opcodeOf] at hop
      simp only [encode_mrd_word_iff, encode_mwr_word_iff, encode_iord_word_iff, encode_iowr_word_iff,
        encode_install_word_iff, encode_load_word_iff, encode_start_word_iff, encode_line_word_iff,
        encode_disp_word_iff]
      simp only [zeroBitsClear, payloadLen, operandsOf, hop, BitVec.reduceEq, reduceIte, length_eq_toNat_iff]
      simp [Instr.wellFormed, encode]
    case mrd | mwr | iord | iowr | install => tauto
    case load d o bs =>
      constructor
      · rintro ⟨⟨hfits, hlen⟩, hd, ho, rfl⟩
        exact ⟨Nat.le_of_lt_succ hfits, ⟨hd, ho, hlen⟩, rfl⟩
      · rintro ⟨hfits, ⟨hd, ho, hlen⟩, rfl⟩
        exact ⟨⟨Nat.lt_succ_of_le hfits, hlen⟩, hd, ho, rfl⟩
    case line bs =>
      constructor
      · rintro ⟨hzero, ⟨hfits, hlen⟩, rfl⟩
        exact ⟨Nat.le_of_lt_succ hfits, ⟨hzero, hlen⟩, rfl⟩
      · rintro ⟨hfits, ⟨hzero, hlen⟩, rfl⟩
        exact ⟨hzero, ⟨Nat.lt_succ_of_le hfits, hlen⟩, rfl⟩
  · constructor
    · rintro ⟨-, -, h⟩
      exact absurd (opField_of_operandsOf h) hop
    · rintro ⟨-, rfl, -⟩
      exact absurd (opField_encode i) hop

/-- A transaction decodes to an operation exactly when it is the encoding of the operation, and that is well formed. -/
theorem decode_eq_op_iff_encode : decode t = .op i ↔ i.wellFormed = true ∧ encode i = t := by
  rw [decode_eq_op_iff, carries_iff_encode]
  constructor
  · obtain ⟨p, w, payload⟩ := t
    rintro ⟨hport, hwf, rfl, rfl⟩
    rw [portField_of_opcode (opField_encode i)] at hport
    cases hport
    exact ⟨hwf, rfl⟩
  · rintro ⟨hwf, rfl⟩
    exact ⟨portField_of_opcode (opField_encode i), hwf, rfl, rfl⟩

/-- Settles O1: the operations a transaction decodes to are those whose encoding it is, and every outcome of the decoder
is an operation or a rejection. -/
theorem encodingAndDecodingAreInverse : Obligations.EncodingAndDecodingAreInverse := by
  refine ⟨fun t => ?_, fun i hwf => decode_eq_op_iff_encode.mpr ⟨hwf, rfl⟩, fun t i => decode_eq_op_iff_encode.mp⟩
  cases decode t with
  | op i => exact .inl ⟨i, rfl⟩
  | bad r => exact .inr ⟨r, rfl⟩

end Sys2Proof.Proofs
end

section
/-! PROOF. The transactions that spell no operation (R101, R102). -/

namespace Sys2Proof.Proofs
open Sys2Proof.Machine Sys2Proof.Claims

variable {t : Transaction} {i : Instr}

theorem payloadLen_eq_announced (w : Word) : payloadLen w = announced w := by
  simp only [payloadLen, announced, opField_eq_iff w (show 0x5 < 16 by decide),
    opField_eq_iff w (show 0x8 < 16 by decide), toNat_field, Nat.pow_zero, Nat.div_one]

/-- The decoder rejects exactly what fails one of its four checks. -/
theorem exists_decode_bad_iff : (∃ r, decode t = .bad r) ↔
    reservedOp t.word = true ∨ portField t.word ≠ some t.port ∨ zeroBitsClear t.word = false ∨
      t.payload.length ≠ payloadLen t.word := by
  unfold decode
  split_ifs with hres hport hzero hlen
  · exact ⟨fun _ => .inl hres, fun _ => ⟨_, rfl⟩⟩
  · exact ⟨fun _ => .inr (.inl hport), fun _ => ⟨_, rfl⟩⟩
  · obtain ⟨i, hi⟩ := exists_operandsOf (by simpa using hres) t.payload
    simp only [not_not, hasLength_iff] at hport hlen
    simp [hi, hres, hport, hzero, hlen]
  · exact ⟨fun _ => .inr (.inr (.inr (by simpa [hasLength_iff] using hlen))), fun _ => ⟨_, rfl⟩⟩
  · exact ⟨fun _ => .inr (.inr (.inl (by simpa using hzero))), fun _ => ⟨_, rfl⟩⟩

/-- The bits `lo` to `lo + n - 1` of a word. -/
def fieldMask (lo n : Nat) : Word := (BitVec.allOnes n).setWidth 32 <<< lo

/-- A word has no bit in a field's mask when the field is zero. -/
theorem and_fieldMask_eq_zero_iff (w : Word) {lo n : Nat} (h : lo + n ≤ 32) :
    w &&& fieldMask lo n = 0#32 ↔ w.extractLsb' lo n = 0#n := by
  constructor
  · intro hmask
    ext k hk
    have hbit := congrArg (fun x => x.getLsbD (lo + k)) hmask
    simpa [fieldMask, hk, show lo + k < 32 by omega] using hbit
  · intro hfield
    ext k hk
    have hbit : k - lo < n → w.getLsbD (lo + (k - lo)) = false := by
      simpa using congrArg (fun x => x.getLsbD (k - lo)) hfield
    have hout : w[k] = true → lo ≤ k → n ≤ k - lo := by
      intro hset hlo
      rw [Nat.add_sub_cancel' hlo, BitVec.getLsbD_eq_getElem hk, hset] at hbit
      simpa using hbit
    simpa [fieldMask] using hout

/-- On an opcode of the map the decoder's zero bits are those of R101 (b). -/
theorem zeroBitsClear_iff_zeroMask {w : Word} (h : opField w = opcodeOf i) :
    zeroBitsClear w = true ↔ w &&& zeroMask (w.toNat / 2 ^ 28) = 0#32 := by
  have hRead : 0x0F0000FF#32 = fieldMask 24 4 ||| fieldMask 0 8 := by decide
  have hWrite : 0x0F000000#32 = fieldMask 24 4 := by decide
  have hInstall : 0x0FFFE0E0#32 = fieldMask 13 15 ||| fieldMask 5 3 := by decide
  have hLine : 0x0FFF0000#32 = fieldMask 16 12 := by decide
  have hBare : 0x0FFFFFFF#32 = fieldMask 0 28 := by decide
  rw [← opField_toNat, h]
  cases i <;> simp only [opcodeOf] at h <;>
    simp [zeroBitsClear, h, opcodeOf, zeroMask, hRead, hWrite, hInstall, hLine, hBare, BitVec.and_or_distrib_left,
      and_fieldMask_eq_zero_iff]

theorem reservedOp_iff (w : Word) : reservedOp w = true ↔ w.toNat / 2 ^ 28 = 0x7 ∨ 0xA ≤ w.toNat / 2 ^ 28 := by
  simp only [reservedOp, Bool.or_eq_true, decide_eq_true_eq, opField_eq_iff w (show 7 < 16 by decide), BitVec.le_def,
    opField_toNat]
  rfl

/-- R101 (a), (b) and (c) are three of the checks of the decoder. -/
theorem spellsNothing_iff (p : Port) (w : Word) :
    SpellsNothing p w ↔ reservedOp w = true ∨ portField w ≠ some p ∨ zeroBitsClear w = false := by
  simp only [SpellsNothing, ← reservedOp_iff, ne_eq, ← portField_eq_some_iff]
  cases hres : reservedOp w
  · obtain ⟨i, hi⟩ := exists_operandsOf hres []
    rw [← zeroBitsClear_iff_zeroMask (opField_of_operandsOf hi), Bool.not_eq_true]
    tauto
  · simp

/-- A pending transaction that spells nothing does not hold, so as the oldest it is taken up and refused (R101,
R207). -/
theorem step_of_decode_bad {s : State} {rest : List Transaction} {r : Reject} (hc : s.cfg.wellFormed = true)
    (harr : s.arrivals = t :: rest) (hd : decode t = .bad r) : step s = .refused .badEncoding := by
  have hhold : holding s.wait t = false := by simp [holding, hd]
  have hup : takeUp s.wait [] s.arrivals = some (t, rest) := by
    rw [harr]
    exact takeUp_cons_of_not_holding rest List.not_mem_nil hhold
  simp [step, fetch, hc, hup, hd]

/-- The checks of an operation have reasons of their own (R101, R203). -/
theorem exec_ne_badEncoding (i : Instr) (s : State) : exec i s ≠ .refused .badEncoding := by
  cases i with
  | mrd a =>
    simp only [exec, execMrd, hold]
    split_ifs <;> simp
  | mwr a v =>
    simp only [exec, execMwr, hold]
    split_ifs <;> simp
  | iord port =>
    simp only [exec, execIord, hold]
    cases s.inq <;> split_ifs <;> simp
  | iowr port v =>
    simp only [exec, execIowr, hold]
    split_ifs <;> simp
  | install w d =>
    simp only [exec, execInstall, hold]
    split_ifs <;> simp
  | load d o bs =>
    simp only [exec, execLoad, hold]
    split_ifs <;> simp
  | start =>
    simp only [exec, execStart, hold]
    split_ifs <;> simp
  | line bs =>
    simp only [exec, execLine]
    split_ifs <;> simp
  | disp => simp [exec, execDisp]

/-- Settles O2: the four checks of the decoder, less the one of the length, are the cases (a), (b) and (c). -/
theorem badEncodingExactlyInCasesAbc : Obligations.BadEncodingExactlyInCasesAbc := by
  refine ⟨fun p w payload hlen => ?_, fun s t rest r hc _ => step_of_decode_bad hc, exec_ne_badEncoding,
    fun s w d origin bytes hp => ⟨fun hw hd => ?_, fun hw hd hfits => ?_, fun m hw hm hlen => ?_⟩⟩
  · rw [exists_decode_bad_iff, spellsNothing_iff, payloadLen_eq_announced]
    simp [hlen]
  · simp [exec, execInstall, execLoad, hw, hp, deviceExists, Nat.not_lt.mpr hd]
  · simp [exec, execLoad, hw, hp, deviceExists, hd, loadFits, Nat.not_le.mpr hfits]
  · simp [exec, execLine, hw, lineFits, hm, Nat.not_le.mpr hlen]

/-- Settles O3: the length is one of the checks of the decoder. -/
theorem payloadOfWrongLengthIsRejected : Obligations.PayloadOfWrongLengthIsRejected := by
  intro p w payload hlen
  obtain ⟨r, hr⟩ : ∃ r, decode ⟨p, w, payload⟩ = .bad r :=
    exists_decode_bad_iff.mpr (.inr (.inr (.inr (payloadLen_eq_announced w ▸ hlen))))
  exact ⟨⟨r, hr⟩, fun s rest hc harr => step_of_decode_bad hc harr hr⟩

/-- Settles O4: each word is its fields joined; the three decodes are read off the encodings. -/
theorem workedEncodingsDecode : Obligations.WorkedEncodingsDecode := by
  refine ⟨by decide, by decide, by decide, by decide, by decide, by decide, by decide, by decide, by decide,
    fun _ _ _ _ _ => ?_, fun _ _ => ?_, by decide, by decide, by decide, by decide, ?_, ?_, ?_⟩
  · simp [encode]
  · simp [encode]
  · exact decode_eq_op_iff_encode.mpr ⟨rfl, by decide⟩
  · exact decode_eq_op_iff_encode.mpr ⟨rfl, by decide⟩
  · exact decode_eq_op_iff_encode.mpr ⟨rfl, by decide⟩

end Sys2Proof.Proofs
end

section
/-! PROOF. Who responds (R99), and the sampling of the straps (R104). -/

namespace Sys2Proof.Proofs
open Sys2Proof.Machine Sys2Proof.Claims

variable {s t : State}

/-! Responses. -/

/-- Settles O42, operation by operation: one that holds, suspends or is typed `-> ()` responds on neither port. -/
theorem respondersAndTheirPorts : Obligations.RespondersAndTheirPorts := by
  intro s t i h
  cases i with
  | mrd a =>
    rcases execMrd_cases h with ⟨-, rfl⟩ | ⟨-, rfl⟩
    · exact ⟨.inl rfl, .inl rfl⟩
    · exact ⟨.inr ⟨⟨_, rfl⟩, .inl ⟨a, rfl⟩⟩, .inl rfl⟩
  | mwr a v =>
    rcases execMwr_cases h with ⟨-, rfl⟩ | ⟨-, rfl⟩
    · exact ⟨.inl rfl, .inl rfl⟩
    · rw [memWrite_eq_withBuf]
      exact ⟨.inl rfl, .inl rfl⟩
  | iord port =>
    rcases execIord_cases h with ⟨-, rfl⟩ | ⟨-, -, rfl⟩ | ⟨-, b, q, -, rfl⟩
    · exact ⟨.inl rfl, .inl rfl⟩
    · exact ⟨.inl rfl, .inl rfl⟩
    · exact ⟨.inr ⟨⟨b, rfl⟩, .inr (.inl ⟨port, rfl⟩)⟩, .inl rfl⟩
  | iowr port v =>
    rcases execIowr_cases h with ⟨-, rfl⟩ | ⟨-, rfl⟩
    · exact ⟨.inl rfl, .inl rfl⟩
    · rw [consolePut_eq_setOutw]
      exact ⟨.inl rfl, .inl rfl⟩
  | install w d => rcases execInstall_cases h with ⟨-, rfl⟩ | ⟨-, -, -, rfl⟩ <;> exact ⟨.inl rfl, .inl rfl⟩
  | load d origin bs =>
    rcases execLoad_cases h with ⟨-, rfl⟩ | ⟨-, -, -, -, rfl⟩
    · exact ⟨.inl rfl, .inl rfl⟩
    · obtain ⟨m, hm⟩ := devLoad_eq_setBuf s d.toNat origin.toNat bs
      rw [hm]
      exact ⟨.inl rfl, .inl rfl⟩
  | start => rcases execStart_cases h with ⟨-, rfl⟩ | ⟨-, -, rfl⟩ <;> exact ⟨.inl rfl, .inl rfl⟩
  | line bs =>
    obtain ⟨-, -, rfl⟩ := execLine_cases h
    rw [refill_eq_cons, completeRead_cons]
    exact ⟨.inr ⟨⟨_, rfl⟩, .inr (.inr ⟨bs, rfl⟩)⟩, .inl rfl⟩
  | disp =>
    obtain rfl := execDisp_cases h
    exact ⟨.inl rfl, .inr ⟨rfl, rfl⟩⟩

/-! Straps. -/

theorem config_wellFormed_iff (c : Config) : c.wellFormed = true ↔
    ndev c ≤ 32 ∧ 1 ≤ c.dispN ∧ ∀ m, c.lineMax = some m → 1 ≤ m := by
  have hndev : ndev c = c.tags.length + 1 := rfl
  cases h : c.lineMax <;> simp [Config.wellFormed, h, hndev, and_assoc]

theorem tagOfBits_eq_some_iff (b : BitVec 2) (g : Tag) : tagOfBits b = some g ↔ b = tagBits g := by
  cases g <;> revert b <;> decide

theorem tagBits_ne_reserved (g : Tag) : tagBits g ≠ 0b10#2 := by
  cases g <;> decide

/-- A list of straps names the tags whose bits it holds (R40). -/
theorem tagsOfBits_eq_some_iff (bs : List (BitVec 2)) (gs : List Tag) :
    tagsOfBits bs = some gs ↔ bs = gs.map tagBits := by
  induction bs generalizing gs with
  | nil => cases gs <;> simp [tagsOfBits]
  | cons b bs ih =>
    cases gs with
    | nil =>
      simp only [tagsOfBits]
      split <;> simp
    | cons g gs =>
      rw [List.map_cons, List.cons.injEq, ← ih, ← tagOfBits_eq_some_iff]
      simp only [tagsOfBits]
      split <;> simp_all

/-- The one pair of bits that names no tag is the reserved one (R40). -/
theorem exists_tagOfBits {b : BitVec 2} (h : b ≠ 0b10#2) : ∃ g, tagOfBits b = some g := by
  unfold tagOfBits
  split_ifs
  iterate 3 exact ⟨_, rfl⟩
  bv_omega

/-- Straps none of which is reserved name tags. -/
theorem exists_tagsOfBits {bs : List (BitVec 2)} (h : 0b10#2 ∉ bs) : ∃ gs, tagsOfBits bs = some gs := by
  induction bs with
  | nil => exact ⟨[], rfl⟩
  | cons b bs ih =>
    obtain ⟨g, hg⟩ := exists_tagOfBits (Ne.symm (List.ne_of_not_mem_cons h))
    obtain ⟨gs, hgs⟩ := ih (List.not_mem_of_not_mem_cons h)
    exact ⟨g :: gs, by simp [tagsOfBits, hg, hgs]⟩

variable {p : Straps} {c : Config}

/-- The strap bits of the tags that are looked at: those of devices 1 to `NDEV - 1` (R104). -/
def strapTags (p : Straps) : List (BitVec 2) := p.tag.toList.take (p.ndev.toNat - 1)

/-- The configuration that the straps carry, its tags given. -/
def strapConfig (p : Straps) (tags : List Tag) : Config :=
  { tags := tags, sentinel := p.sentinel, dispN := p.dispN, placeholder := p.placeholder, lineMax := p.lineMax }

theorem strapTags_getElem? {d : Nat} (hlo : 1 ≤ d) (hhi : d < p.ndev.toNat) :
    (strapTags p)[d - 1]? = p.tag[d - 1]? := by
  rw [strapTags, List.getElem?_take_of_lt (by omega), Vector.getElem?_toList]

/-- Every strap pair that is looked at is that of a device of the table. -/
theorem exists_device_of_mem_strapTags {b : BitVec 2} (h : b ∈ strapTags p) :
    ∃ d, 1 ≤ d ∧ d < p.ndev.toNat ∧ p.tag[d - 1]? = some b := by
  obtain ⟨k, hk⟩ := List.mem_iff_getElem?.mp h
  have hlt : k < p.ndev.toNat - 1 := by
    obtain ⟨hlt, -⟩ := List.getElem?_eq_some_iff.mp hk
    simp only [strapTags, List.length_take] at hlt
    omega
  exact ⟨k + 1, by omega, by omega, by rwa [← strapTags_getElem? (by omega) (by omega)]⟩

/-- A table of the sampled tags has `NDEV` devices. -/
theorem ndev_strapConfig {gs : List Tag} (hlo : 1 ≤ p.ndev.toNat) (hhi : p.ndev.toNat ≤ 32)
    (hgs : strapTags p = gs.map tagBits) : ndev (strapConfig p gs) = p.ndev.toNat := by
  have hlen := congrArg List.length hgs
  simp only [strapTags, List.length_take, Vector.length_toList, List.length_map] at hlen
  simp only [ndev, deviceTable, strapConfig, List.length_cons]
  omega

/-- The straps carry the tags of the configuration, device by device (R40, R104). -/
theorem tag_strapConfig {gs : List Tag} (hgs : strapTags p = gs.map tagBits) {d : Nat} (hlo : 1 ≤ d)
    (hhi : d < p.ndev.toNat) (hd : d < ndev (strapConfig p gs)) :
    p.tag[d - 1]? = some (tagBits (tagOf (strapConfig p gs) d)) := by
  obtain ⟨k, rfl⟩ := Nat.exists_eq_add_of_le' hlo
  have hk : k < gs.length := Nat.lt_of_succ_lt_succ hd
  rw [← strapTags_getElem? hlo hhi, hgs]
  simp [tagOf, deviceTable, strapConfig, hk]

/-- Sampling succeeds with the configuration the straps carry, when `NDEV` is in range and no tag is reserved and that
configuration is well formed. -/
theorem sampleStraps_eq_some_iff : sampleStraps p = some c ↔
    1 ≤ p.ndev.toNat ∧ p.ndev.toNat ≤ 32 ∧
      ∃ gs, strapTags p = gs.map tagBits ∧ (strapConfig p gs).wellFormed = true ∧ strapConfig p gs = c := by
  simp only [← tagsOfBits_eq_some_iff]
  unfold sampleStraps strapTags strapConfig
  split_ifs with h0
  · simp [h0]
  · cases tagsOfBits (p.tag.toList.take (p.ndev.toNat - 1)) with
    | none => simp
    | some gs => simp [Nat.one_le_iff_ne_zero, h0, and_assoc]

/-- The straps are good when sampling them succeeds. -/
theorem strapsGood_iff : StrapsGood p ↔ ∃ c, sampleStraps p = some c := by
  simp only [sampleStraps_eq_some_iff]
  constructor
  · rintro ⟨hlo, hhi, htags, hdisp, hline⟩
    have hnone : 0b10#2 ∉ strapTags p := by
      intro hmem
      obtain ⟨d, h1, h2, hd⟩ := exists_device_of_mem_strapTags hmem
      exact htags d h1 h2 hd
    obtain ⟨gs, htagsOf⟩ := exists_tagsOfBits hnone
    have hgs := (tagsOfBits_eq_some_iff _ _).mp htagsOf
    exact ⟨_, hlo, hhi, gs, hgs,
      (config_wellFormed_iff _).mpr ⟨(ndev_strapConfig hlo hhi hgs).trans_le hhi, hdisp, hline⟩, rfl⟩
  · rintro ⟨_, hlo, hhi, gs, hgs, hwf, rfl⟩
    obtain ⟨-, hdisp, hline⟩ := (config_wellFormed_iff _).mp hwf
    refine ⟨hlo, hhi, fun d h1 h2 hd => ?_, hdisp, hline⟩
    rw [tag_strapConfig hgs h1 h2 (ndev_strapConfig hlo hhi hgs ▸ h2)] at hd
    exact tagBits_ne_reserved _ (Option.some.inj hd)

theorem powerOn_eq_badConfig_iff (p : Straps) (boot : Nat) :
    powerOn p boot = .refused .badConfig ↔ ¬∃ c, sampleStraps p = some c := by
  unfold powerOn
  split <;> simp_all

/-- Settles O48: sampling succeeds exactly on good straps, and no operation writes the configuration. -/
theorem strapsAreSampledAndChecked : Obligations.StrapsAreSampledAndChecked := by
  refine ⟨fun p boot => ⟨?_, fun hgood => ?_⟩, fun s hc => ?_, fun s t h => (step_cfg_boot h).1⟩
  · rw [powerOn_eq_badConfig_iff, strapsGood_iff]
  · obtain ⟨c, hc⟩ := strapsGood_iff.mp hgood
    obtain ⟨hlo, hhi, gs, hgs, hwf, rfl⟩ := sampleStraps_eq_some_iff.mp hc
    have hn := ndev_strapConfig hlo hhi hgs
    exact ⟨_, by rw [powerOn, hc], hn, fun d h1 h2 => tag_strapConfig hgs h1 h2 (hn ▸ h2), rfl, rfl, rfl, rfl, hwf⟩
  · simp [step, fetch, hc]

end Sys2Proof.Proofs
end

section
/-! PROOF. The bus operations `MRD` and `MWR` by window and offset (R120, R121), and the laws of the bus (R122). -/

namespace Sys2Proof.Proofs
open Sys2Proof.Machine Sys2Proof.Claims

variable {s t : State}

/-! Spelling. -/

/-- A well-formed operation is spelled by its encoding, on the port of the encoding only (R98, R103). -/
theorem spelledBy_of_wellFormed {i : Instr} {word : Nat} (hwf : i.wellFormed = true)
    (hword : (encode i).word.toNat = word) : SpelledBy i (encode i).port word (encode i).payload := by
  refine ⟨hword, rfl, fun q => ?_⟩
  rw [decode_eq_op_iff_encode]
  constructor
  · rintro ⟨-, henc⟩
    rw [henc]
  · rintro rfl
    exact ⟨hwf, rfl⟩

/-! Addresses by window and offset. -/

/-- An integer address is reduced to the join of its window and its offset (R62, R63). -/
theorem reduceAddr_eq_addrOf {addr : Int} {w : WinIx} {o : Offset}
    (h : addr % 65536 = w.toNat * 2048 + o.toNat) : reduceAddr addr = addrOf w o := by
  apply BitVec.eq_of_toNat_eq
  have hred := reduceAddr_toNat_int addr
  rw [addrOf, toNat_append_add]
  omega

/-- The reduced address as the number that stands in the address field (R92, R100). -/
theorem reduceAddr_toNat_eq (addr : Int) : (reduceAddr addr).toNat = (addr % 65536).toNat := by
  rw [← reduceAddr_toNat_int, Int.toNat_natCast]

/-- A device answers the sentinel when it is unmapped, and its byte otherwise (R140). -/
theorem devRead_eq_ite_unmapped (s : State) (d o : Nat) :
    devRead s d o = if tagOf s.cfg d = .unmapped then s.cfg.sentinel else bufByte s d o := by
  cases htag : tagOf s.cfg d <;> simp [devRead_eq, htag, readsPass]

/-- Settles O12: the address is the join of `w` and `o`, so the read is one of the device that `w` maps. -/
theorem mrdRespondsWithTheMappedByte : Obligations.MrdRespondsWithTheMappedByte := by
  intro s addr w o haddr
  refine ⟨spelledBy_of_wellFormed rfl ?_, fun hw => exec_of_holds hw rfl, fun hw => ?_⟩
  · rw [asmMrd, encode_mrd_toNat, reduceAddr_toNat_eq]
  · rw [asmMrd, exec_mrd_next hw, reduceAddr_eq_addrOf haddr, memRead_addrOf, devRead_eq_ite_unmapped]
    rfl

/-- Settles O13: the address is the join of `w` and `o`, so the write is one to the device that `w` maps. -/
theorem mwrWritesTheMappedByteOfRamOnly : Obligations.MwrWritesTheMappedByteOfRamOnly := by
  intro s addr v w o haddr
  refine ⟨spelledBy_of_wellFormed rfl ?_, fun hw => exec_of_holds hw rfl,
    fun hw => ⟨_, exec_mwr_next hw _ v, memWrite_eq_withBuf s _ v, fun d p hp => ?_⟩⟩
  · rw [asmMwr, encode_mwr_toNat, reduceAddr_toNat_eq]
    rfl
  · rw [reduceAddr_eq_addrOf haddr, memWrite_addrOf, bufByte_devWrite s _ d v o.isLt hp]
    refine if_congr (and_congr_right fun hd => ?_) rfl rfl
    rw [hd]

/-! Reads after writes. -/

/-- A read sees an integer address only through its reduction (R62). -/
theorem memRead_congr (s : State) {a b : Int} (h : reduceAddr a = reduceAddr b) : memRead s a = memRead s b := by
  simp only [memRead, h]

theorem lands_iff (s : State) (x a : Addr) : lands s x a = true ↔
    tagOf s.cfg (deviceAt s x) = .rw ∧ deviceAt s x = deviceAt s a ∧ offsetOf x = offsetOf a := decide_eq_true_iff

/-- A write lands on its own address exactly in a `RW` device. -/
theorem lands_self_iff (s : State) (a : Addr) : lands s a a = true ↔ tagOf s.cfg (deviceAt s a) = .rw := by
  simp [lands_iff]

/-- After writes that complete, a read gives the latest of those that landed on its byte (R75). -/
theorem memRead_of_execAll_writes {ws : List (Addr × Byte)} (hw : s.wait = false)
    (h : execAll (writes ws) s = .next t) (a : Addr) :
    memRead t a.toNat = ws.foldl (fun v x => if lands s x.1 a then x.2 else v) (memRead s a.toNat) := by
  obtain ⟨u, hu, -, hread⟩ := execAll_writes s ws hw
  obtain rfl : u = t := Host.Outcome.next.inj (hu.symm.trans h)
  exact hread a

/-- No write lands where the device is not `RW`, so a read there gives what it gave before (R73). -/
theorem memRead_of_execAll_writes_protected {ws : List (Addr × Byte)} (hw : s.wait = false)
    (h : execAll (writes ws) s = .next t) {a : Addr} (htag : tagOf s.cfg (deviceAt s a) ≠ .rw) :
    memRead t a.toNat = memRead s a.toNat := by
  rw [memRead_of_execAll_writes hw h]
  refine List.foldl_fixed' (fun x => if_neg fun hlands => htag ?_) ws
  obtain ⟨hrw, hdev, -⟩ := (lands_iff s x.1 a).mp hlands
  rwa [← hdev]

/-! The reference map. -/

theorem windowOf_eq_iff (a : Addr) {n : Nat} (hn : n < 32) : windowOf a = BitVec.ofNat 5 n ↔ a.toNat / 2048 = n := by
  rw [← BitVec.toNat_inj, windowOf_toNat, BitVec.toNat_ofNat, Nat.mod_eq_of_lt hn]

/-- The device at an address is `RW` in window 0, `RO` in window 1 and unmapped in every other (R10). -/
theorem tagOf_deviceAt_of_referenceMap (h : ReferenceMap s) (a : Addr) : tagOf s.cfg (deviceAt s a) =
    if a.toNat / 2048 = 0 then .rw else if a.toNat / 2048 = 1 then .ro else .unmapped := by
  obtain ⟨htags, hmap⟩ := h
  rw [deviceAt, hmap, tagOf, deviceTable, htags]
  simp only [windowOf_eq_iff a (show 0 < 32 by decide), windowOf_eq_iff a (show 1 < 32 by decide)]
  split_ifs <;> rfl

theorem tagOf_deviceAt_eq_rw_iff (h : ReferenceMap s) (a : Addr) :
    tagOf s.cfg (deviceAt s a) = .rw ↔ a.toNat ≤ 0x07FF := by
  rw [tagOf_deviceAt_of_referenceMap h]
  split_ifs
  · exact iff_of_true rfl (by omega)
  · exact iff_of_false nofun (by omega)
  · exact iff_of_false nofun (by omega)

/-- In the one `RW` window of the reference map a write lands on a byte from its own address only. -/
theorem lands_iff_eq_of_referenceMap (h : ReferenceMap s) {a : Addr} (ha : a.toNat ≤ 0x07FF) (x : Addr) :
    lands s x a = true ↔ x = a := by
  constructor
  · intro hlands
    obtain ⟨htag, -, hoff⟩ := (lands_iff s x a).mp hlands
    have hx := (tagOf_deviceAt_eq_rw_iff h x).mp htag
    rw [← BitVec.toNat_inj, offsetOf_toNat, offsetOf_toNat] at hoff
    apply BitVec.eq_of_toNat_eq
    omega
  · rintro rfl
    exact (lands_self_iff s x).mpr ((tagOf_deviceAt_eq_rw_iff h x).mpr ha)

/-- From 0x1000 up the reference map has nothing mapped (R10). -/
theorem memRead_eq_sentinel_of_referenceMap (h : ReferenceMap s) {a : Addr} (ha : 0x1000 ≤ a.toNat) :
    memRead s a.toNat = s.cfg.sentinel := by
  have htag : tagOf s.cfg (deviceAt s a) = .unmapped := by
    rw [tagOf_deviceAt_of_referenceMap h, if_neg (by omega), if_neg (by omega)]
  rw [memRead_toNat, devRead_eq_ite_unmapped, if_pos htag]

/-- Settles O14: which writes land on an address, told from the tag of its device. -/
theorem busLawsOfTheReferenceMap : Obligations.BusLawsOfTheReferenceMap := by
  refine ⟨fun s t ws hmap hw ht => ?_, fun s t a v hw h => ?_⟩
  · have hprotected (a : Addr) (ha : 0x0800 ≤ a.toNat) : memRead t a.toNat = memRead s a.toNat :=
      memRead_of_execAll_writes_protected hw ht fun htag => by
        have := (tagOf_deviceAt_eq_rw_iff hmap a).mp htag
        omega
    refine ⟨fun a ha => ?_, fun a ha _ => hprotected a ha, fun a ha => ?_, memRead_congr t (by decide)⟩
    · simp only [memRead_of_execAll_writes hw ht, lands_iff_eq_of_referenceMap hmap ha]
    · rw [hprotected a (by omega), memRead_eq_sentinel_of_referenceMap hmap ha]
  · obtain rfl : memWrite s a.toNat v = t := Host.Outcome.next.inj ((exec_mwr_next hw a v).symm.trans h)
    rw [memRead_memWrite, ← lands_self_iff]
    split_ifs with hlands <;> simp [hlands]

end Sys2Proof.Proofs
end

section
/-! PROOF. The device primitives (R140 to R142) and the setup operations `INSTALL`, `LOAD`, `START` (R144 to R146). -/

namespace Sys2Proof.Proofs
open Sys2Proof.Machine Sys2Proof.Claims

variable {s : State}

/-! The device primitives. -/

/-- A device write changes nothing but buffers (R141). -/
theorem devWrite_eq_withBuf (s : State) (d o : Nat) (v : Byte) :
    devWrite s d o v = { s with buf := (devWrite s d o v).buf } := by
  rcases devWrite_cases s d o v with ⟨-, heq⟩ | ⟨-, heq⟩ <;> rw [heq]
  rfl

/-- A device that is not `RW` discards writes (R141). -/
theorem devWrite_of_ne_rw {d : Nat} (htag : tagOf s.cfg d ≠ .rw) (o : Nat) (v : Byte) : devWrite s d o v = s := by
  rcases devWrite_cases s d o v with ⟨hrw, -⟩ | ⟨-, heq⟩
  · exact absurd hrw htag
  · exact heq

/-- A device load changes nothing but buffers (R142). -/
theorem devLoad_eq_withBuf (s : State) (d origin : Nat) (bs : List Byte) :
    devLoad s d origin bs = { s with buf := (devLoad s d origin bs).buf } := by
  obtain ⟨m, hm⟩ := devLoad_eq_setBuf s d origin bs
  rw [hm]
  rfl

/-- An unmapped device accepts a load and takes nothing (R142). -/
theorem devLoad_of_unmapped {d : Nat} (htag : tagOf s.cfg d = .unmapped) (origin : Nat) (bs : List Byte) :
    devLoad s d origin bs = s := by
  rw [devLoad, htag]
  rfl

/-- A device of the two buffered tags is not unmapped. -/
theorem ne_unmapped_of_rw_or_ro {g : Tag} (h : g = .rw ∨ g = .ro) : g ≠ .unmapped := by
  rcases h with rfl | rfl <;> nofun

/-- Settles O18: a device answers its byte unless it is unmapped. -/
theorem devReadFollowsTheTag : Obligations.DevReadFollowsTheTag := fun s d o _ _ =>
  ⟨fun htag => devRead_of_ne_unmapped (ne_unmapped_of_rw_or_ro htag) o,
    fun htag => by rw [devRead_eq_ite_unmapped, if_pos htag]⟩

/-- Settles O19: a `RW` device changes in the byte written alone, and a device of another tag discards the write. -/
theorem devWriteReachesRamOnly : Obligations.DevWriteReachesRamOnly := by
  intro s d o v _ ho
  refine ⟨fun hrw => ⟨devWrite_eq_withBuf s d o v, fun e p hp => ?_⟩, fun htag => devWrite_of_ne_rw ?_ o v⟩
  · rw [bufByte_devWrite s d e v ho hp]
    simp only [hrw, and_true]
  · rcases htag with htag | htag <;> rw [htag] <;> nofun

/-- Settles O20: the bytes inside the range are the sequence, those outside it are kept. -/
theorem devLoadPlacesBytesAscending : Obligations.DevLoadPlacesBytesAscending := fun s d origin bytes _ hfits =>
  ⟨fun htag => ⟨devLoad_eq_withBuf s d origin bytes,
      fun _ hi => bufByte_devLoad_inside (ne_unmapped_of_rw_or_ro htag) origin bytes hi,
      fun _ _ hp hout => bufByte_devLoad_outside s hfits hp hout⟩,
    fun htag => devLoad_of_unmapped htag origin bytes⟩

/-! The checks of the setup operations, in the order of R207. -/

/-- Every operation of the setup port is refused once `PHASE` has left `SETUP` (R144, R145, R146). -/
theorem exec_setup_of_phase_ne {i : Instr} (hport : (encode i).port = .setup) (hw : s.wait = false)
    (hp : s.phase ≠ .setup) : exec i s = .refused .notInSetup := by
  cases i with
  | install w d => simp [exec, execInstall, hw, hp]
  | load d origin bytes => simp [exec, execLoad, hw, hp]
  | start => simp [exec, execStart, hw, hp]
  | mrd addr => cases hport
  | mwr addr value => cases hport
  | iord port => cases hport
  | iowr port value => cases hport
  | line bytes => cases hport
  | disp => cases hport

variable {d : DevIx}

theorem exec_install_badDevice (hw : s.wait = false) (hp : s.phase = .setup) (hd : ndev s.cfg ≤ d.toNat) (w : WinIx) :
    exec (.install w d) s = .refused .badDevice := by
  simp [exec, execInstall, deviceExists, hw, hp, hd]

theorem exec_load_badDevice (hw : s.wait = false) (hp : s.phase = .setup) (hd : ndev s.cfg ≤ d.toNat)
    (origin : Offset) (bytes : List Byte) : exec (.load d origin bytes) s = .refused .badDevice := by
  simp [exec, execLoad, deviceExists, hw, hp, hd]

theorem exec_load_loadRange {origin : Offset} {bytes : List Byte} (hw : s.wait = false) (hp : s.phase = .setup)
    (hd : d.toNat < ndev s.cfg) (hlong : 2048 < origin.toNat + bytes.length) :
    exec (.load d origin bytes) s = .refused .loadRange := by
  simp [exec, execLoad, deviceExists, loadFits, hw, hp, hd, hlong]

/-- `LOAD` completes where no check fails, as a load of the device it names (R145). -/
theorem exec_load_next {origin : Offset} {bytes : List Byte} (hw : s.wait = false) (hp : s.phase = .setup)
    (hd : d.toNat < ndev s.cfg) (hfits : origin.toNat + bytes.length ≤ 2048) :
    exec (.load d origin bytes) s = .next (devLoad s d.toNat origin.toNat bytes) := by
  simp [exec, execLoad, deviceExists, loadFits, hw, hp, hd, hfits]

/-- `START` completes where no check fails (R146). -/
theorem exec_start_next (hw : s.wait = false) (hp : s.phase = .setup) : exec .start s = .next (s.setPhase .run) := by
  simp [exec, execStart, hw, hp]

/-- A `LOAD` whose length fits its field is spelled with that length as it is (R94). -/
theorem encode_load_toNat_of_le {bytes : List Byte} (hlen : bytes.length ≤ 4095) (d : DevIx) (origin : Offset) :
    (encode (.load d origin bytes)).word.toNat =
      0x50000000 + d.toNat * 2 ^ 23 + origin.toNat * 2 ^ 12 + bytes.length := by
  rw [encode_load_toNat]
  omega

/-- Settles O21: where the three checks pass, `INSTALL` sets entry `w` of the map. -/
theorem installSetsOneMapEntry : Obligations.InstallSetsOneMapEntry := fun s w d =>
  ⟨spelledBy_of_wellFormed rfl (encode_install_toNat w d), fun hw => exec_of_holds hw rfl,
    fun hw hp => exec_setup_of_phase_ne rfl hw hp, fun hw hp hd => exec_install_badDevice hw hp hd w,
    fun hw hp hd => ⟨s.setWmap w d, exec_install_next hw hp hd, rfl, fun x => setWmap_wmapAt s w x d⟩⟩

/-- Settles O22: where the four checks pass, `LOAD` is the device load of the device it names. -/
theorem loadFillsTheNamedDevice : Obligations.LoadFillsTheNamedDevice := by
  intro s d origin bytes
  refine ⟨fun hlen => spelledBy_of_wellFormed (decide_eq_true hlen) (encode_load_toNat_of_le hlen d origin),
    fun hw => exec_of_holds hw rfl, fun hw hp => exec_setup_of_phase_ne rfl hw hp,
    fun hw hp hd => exec_load_badDevice hw hp hd origin bytes,
    fun hw hp hd hlong => exec_load_loadRange hw hp hd hlong, fun hw hp hd hfits => ?_⟩
  exact ⟨devLoad s d.toNat origin.toNat bytes, exec_load_next hw hp hd hfits, devLoad_eq_withBuf s _ _ bytes,
    fun htag => devLoad_of_unmapped htag _ bytes, fun htag _ hi => bufByte_devLoad_inside htag _ bytes hi,
    fun _ _ hp hout => bufByte_devLoad_outside s hfits hp hout⟩

/-- Settles O23: `START` has no operand and one check of its own. -/
theorem startEndsTheSetupPhase : Obligations.StartEndsTheSetupPhase :=
  ⟨spelledBy_of_wellFormed (i := .start) rfl rfl, fun _ =>
    ⟨fun hw => exec_of_holds hw rfl, fun hw hp => exec_setup_of_phase_ne rfl hw hp,
      fun hw hp => exec_start_next hw hp⟩⟩

end Sys2Proof.Proofs
end

section
/-! PROOF. The console operations `IORD`, `IOWR`, `LINE` and `DISP` (R170 to R175), the fused read and the wait (R176,
R177), and the output window after a sequence of writes (R178). -/

namespace Sys2Proof.Proofs
open Sys2Proof.Machine Sys2Proof.Claims

variable {s t : State}

/-! The output window. -/

/-- A control code empties the window (R171). -/
theorem consolePut_of_control {v : Byte} (hv : v.toNat < 32) (s : State) : consolePut s v = s.setOutw [] := by
  rw [consolePut_eq_setOutw, isControl, decide_eq_true hv, if_pos rfl]

/-- A printable value is appended and the window cut to its last `DISP_N` (R171). -/
theorem consolePut_of_printable {v : Byte} (hv : 32 ≤ v.toNat) (s : State) :
    consolePut s v = s.setOutw (lastN (s.outw ++ [v]) s.cfg.dispN) := by
  rw [consolePut_eq_setOutw, isControl, decide_eq_false hv.not_gt, if_neg Bool.false_ne_true]

theorem exec_iowr_next (hw : s.wait = false) (port : PortNum) (v : Byte) :
    exec (.iowr port v) s = .next (consolePut s v) := by
  simp [exec, execIowr, hw]

/-- With no read suspended a sequence of writes completes, whatever the ports, as one put after another. -/
theorem execAll_consoleWrites (hw : s.wait = false) (vs : List (PortNum × Byte)) :
    execAll (consoleWrites vs) s = .next ((vs.map Prod.snd).foldl consolePut s) := by
  induction vs generalizing s with
  | nil => rfl
  | cons x vs ih =>
    have hwait : (consolePut s x.2).wait = false := by rw [consolePut_eq_setOutw, setOutw_wait, hw]
    exact (execAll_cons_of_next _ (exec_iowr_next hw x.1 x.2)).trans (ih hwait)

theorem lastN_nil (n : Nat) : lastN [] n = [] := List.drop_nil

theorem sinceControl_nil : sinceControl [] = [] := rfl

theorem sinceControl_append_of_control {v : Byte} (hv : v.toNat < 32) (vs : List Byte) :
    sinceControl (vs ++ [v]) = [] := by
  simp [sinceControl, hv.not_ge]

theorem sinceControl_append_of_printable {v : Byte} (hv : 32 ≤ v.toNat) (vs : List Byte) :
    sinceControl (vs ++ [v]) = sinceControl vs ++ [v] := by
  simp [sinceControl, hv]

/-- Puts onto an empty window leave the last `DISP_N` of the printables since the last control code (R178). -/
theorem foldl_consolePut_of_empty (hempty : s.outw = []) (vs : List Byte) :
    vs.foldl consolePut s = s.setOutw (lastN (sinceControl vs) s.cfg.dispN) := by
  induction vs using List.reverseRecOn with
  | nil =>
    rw [List.foldl_nil, sinceControl_nil, lastN_nil, ← hempty]
    rfl
  | append_singleton vs v ih =>
    rw [List.foldl_append, ih, List.foldl_cons, List.foldl_nil]
    rcases Nat.lt_or_ge v.toNat 32 with hv | hv
    · rw [consolePut_of_control hv, sinceControl_append_of_control hv, lastN_nil]
      rfl
    · rw [consolePut_of_printable hv, sinceControl_append_of_printable hv, setOutw_outw, setOutw_cfg,
        lastN_lastN_append]
      rfl

/-- Printables, at least one of them, leave the last `DISP_N` of what the window held and the printables (R178). -/
theorem foldl_consolePut_of_printable (s : State) {vs : List Byte} (hne : vs ≠ []) (hvs : ∀ v ∈ vs, 32 ≤ v.toNat) :
    vs.foldl consolePut s = s.setOutw (lastN (s.outw ++ vs) s.cfg.dispN) := by
  induction vs generalizing s with
  | nil => exact absurd rfl hne
  | cons v vs ih =>
    obtain ⟨hv, hrest⟩ := List.forall_mem_cons.mp hvs
    rw [List.foldl_cons, consolePut_of_printable hv]
    by_cases hnil : vs = []
    · rw [hnil, List.foldl_nil]
    · rw [ih _ hnil hrest, setOutw_outw, setOutw_cfg, lastN_lastN_append, List.append_assoc]
      rfl

/-- What stands ahead of `n` elements or more is lost (R13). -/
theorem lastN_append_of_le (q : List Byte) {r : List Byte} {n : Nat} (h : n ≤ r.length) :
    lastN (q ++ r) n = lastN r n := by
  rw [lastN, List.length_append, Nat.add_sub_assoc h, List.drop_length_add_append]
  rfl

/-- Settles O36: the writes are puts, and each put keeps the window the last printables since the last control code. -/
theorem windowHoldsTheLastPrintables : Obligations.WindowHoldsTheLastPrintables := by
  intro s vs hw hempty
  rw [execAll_consoleWrites hw, foldl_consolePut_of_empty hempty]
  rfl

/-- Settles O37: the window becomes the last `DISP_N` of its old content and the values, which outnumber them. -/
theorem enoughPrintablesFillTheWindow : Obligations.EnoughPrintablesFillTheWindow := by
  intro s vs hw hvs hpos hlen
  have hne : vs.map Prod.snd ≠ [] := by
    rw [ne_eq, List.map_eq_nil_iff, ← List.length_eq_zero_iff]
    omega
  rw [execAll_consoleWrites hw, foldl_consolePut_of_printable s hne (List.forall_mem_map.mpr hvs),
    lastN_append_of_le s.outw (by rwa [List.length_map]), lastN, List.length_map]
  rfl

/-! `LINE` and the suspended read. -/

theorem exec_line_lineNotRequested (hw : s.wait = false) (bytes : List Byte) :
    exec (.line bytes) s = .refused .lineNotRequested := by
  simp [exec, execLine, hw]

theorem exec_line_lineTooLong {bytes : List Byte} (hw : s.wait = true) (hlong : lineFits s.cfg bytes.length = false) :
    exec (.line bytes) s = .refused .lineTooLong := by
  simp [exec, execLine, hw, hlong]

/-- The fused read takes the front of the refilled queue and leaves its rest (R177). -/
theorem fusedIord_eq (bytes : List Byte) (s : State) :
    fusedIord bytes s = (s.setInq bytes.tail).respondCpu (bytes.head?.getD s.cfg.placeholder) := by
  rw [fusedIord, refill_eq_cons]

/-- A line that is requested and short enough does what the fused read does, and ends the wait (R173, R177). -/
theorem exec_line_fused {bytes : List Byte} (hw : s.wait = true) (hfits : lineFits s.cfg bytes.length = true) :
    exec (.line bytes) s = .next ((fusedIord bytes s).setWait false) := by
  rw [exec_line_next hw hfits, fusedIord_eq, refill_eq_cons, completeRead_cons]
  rfl

/-- The fused read changes the queue and gives one response, which together are the line, or the placeholder for an
empty one (R173, R177). -/
theorem fusedIord_split (bytes : List Byte) (s : State) :
    ∃ c q, c :: q = (if bytes = [] then [s.cfg.placeholder] else bytes) ∧
      fusedIord bytes s = (s.setInq q).respondCpu c :=
  ⟨_, _, (refill_eq_cons s.cfg bytes).symm, fusedIord_eq bytes s⟩

/-- Settles O32: the checks of `LINE` in their order, then the fused read for an empty and for a longer line. -/
theorem lineCompletesTheSuspendedRead : Obligations.LineCompletesTheSuspendedRead := by
  intro s bytes
  refine ⟨fun hlen => ?_, fun hw => exec_line_lineNotRequested hw bytes, fun m hw hmax hlong => ?_,
    fun hw hbound => ?_⟩
  · have hword : (encode (.line bytes)).word.toNat = 0x80000000 + bytes.length := by
      rw [encode_line_toNat]
      omega
    exact spelledBy_of_wellFormed (decide_eq_true hlen) hword
  · refine exec_line_lineTooLong hw (Bool.eq_false_iff.mpr fun hfits => ?_)
    exact hlong.not_ge ((lineFits_iff _ _).mp hfits m hmax)
  · rw [exec_line_fused hw ((lineFits_iff _ _).mpr hbound), fusedIord_eq]
    constructor
    · rintro rfl
      rfl
    · rintro c rest rfl
      rfl

/-- Settles O38: the read on an empty queue suspends, and the line that it requests does what the fused read does. -/
theorem fusedReadAgreesWithReadAndLine : Obligations.FusedReadAgreesWithReadAndLine := by
  intro s port bytes hw hq hbound
  have hline : exec (.line bytes) (s.setWait true) = .next ((fusedIord bytes (s.setWait true)).setWait false) :=
    exec_line_fused rfl ((lineFits_iff _ _).mpr hbound)
  have hwait : (fusedIord bytes (s.setWait true)).setWait false = fusedIord bytes s := by
    simp only [fusedIord_eq, State.setWait, State.setInq, State.respondCpu, hw]
  refine ⟨?_, ?_, ?_⟩
  · rw [execAll_cons_of_next _ (exec_iord_suspends hw hq port), execAll_cons_of_next _ hline, execAll_nil, hwait]
  · rw [← hwait, setWait_wait]
  · obtain ⟨c, q, hsplit, heq⟩ := fusedIord_split bytes s
    rw [heq]
    exact ⟨c, hsplit, rfl⟩

/-! The wait. -/

/-- Only `LINE` and `DISP` go on while a read is suspended (R204). -/
theorem eq_line_or_disp_of_not_holdsInWait {i : Instr} (h : holdsInWait i = false) :
    (∃ bytes, i = .line bytes) ∨ i = .disp := by
  cases i with
  | line bytes => exact .inl ⟨bytes, rfl⟩
  | disp => exact .inr rfl
  | _ => cases h

/-- A step during a wait is idle, shows the window, or is a `LINE` that answers the suspended read (R176, R204). -/
theorem step_cases_of_wait (h : step s = .next t) (hw : s.wait = true) :
    t = s ∨ ∃ x rest, takeUp true [] s.arrivals = some (x, rest) ∧
      (t = (s.setArrivals rest).respondOperator s.outw ∨
        ∃ bytes, decode x = .op (.line bytes) ∧ t = (fusedIord bytes (s.setArrivals rest)).setWait false) := by
  refine (step_cases h).2.imp_right fun ⟨x, rest, i, hx, hd, he⟩ => ?_
  rw [hw] at hx
  refine ⟨x, rest, hx, ?_⟩
  rcases eq_line_or_disp_of_not_holdsInWait (not_holdsInWait_of_takeUp hx hd) with ⟨bytes, rfl⟩ | rfl
  · obtain ⟨-, hfits, -⟩ := execLine_cases he
    rw [exec_line_fused (s := s.setArrivals rest) hw hfits] at he
    exact .inr ⟨bytes, hd, (Host.Outcome.next.inj he).symm⟩
  · exact .inl (execDisp_cases he)

/-- Taking up a transaction leaves all that hold pending, in their order (R204). -/
theorem filter_holding_of_takeUp {wait : Bool} {busy : List Port} {ts rest : List Transaction} {x : Transaction}
    (h : takeUp wait busy ts = some (x, rest)) : ts.filter (holding wait) = rest.filter (holding wait) := by
  obtain ⟨-, hx, hsub, hperm⟩ := takeUp_some h
  have hlen := (hperm.filter (holding wait)).length_eq
  rw [List.filter_cons_of_neg (by simp [hx])] at hlen
  exact ((hsub.filter _).eq_of_length hlen.symm).symm

/-- Settles O39: none of the three kinds of step during a wait touches the memory side, the window or what holds. -/
theorem onlyLineEndsTheWait : Obligations.OnlyLineEndsTheWait := by
  intro s t h hw
  rcases step_cases_of_wait h hw with rfl | ⟨x, rest, hx, hstep⟩
  · exact ⟨rfl, rfl, rfl, rfl, List.filter_sublist, .inl ⟨hw, rfl, rfl⟩⟩
  · have hkeep : (s.arrivals.filter (holding true)).Sublist rest := by
      rw [filter_holding_of_takeUp hx]
      exact List.filter_sublist
    rcases hstep with rfl | ⟨bytes, hd, rfl⟩
    · exact ⟨rfl, rfl, rfl, rfl, hkeep, .inl ⟨hw, rfl, rfl⟩⟩
    · obtain ⟨c, q, hsplit, heq⟩ := fusedIord_split bytes (s.setArrivals rest)
      rw [heq]
      exact ⟨rfl, rfl, rfl, rfl, hkeep, .inr ⟨rfl, x, (takeUp_some hx).1, bytes, c, hd, hsplit, rfl⟩⟩

/-! `IORD`, `IOWR`, `DISP`, and what the operator types. -/

/-- Settles O30: the hold, and the two outcomes by whether the queue is empty. -/
theorem iordTakesTheFrontOrSuspends : Obligations.IordTakesTheFrontOrSuspends := fun _ port =>
  ⟨spelledBy_of_wellFormed rfl (encode_iord_toNat port), fun hw => exec_of_holds hw rfl,
    fun _ _ hw hq => exec_iord_front hw hq port, fun hw hq => exec_iord_suspends hw hq port⟩

/-- Settles O31: the hold, and the two outcomes by whether the value is a control code. -/
theorem iowrClearsOrAppends : Obligations.IowrClearsOrAppends := by
  intro s port v
  refine ⟨spelledBy_of_wellFormed rfl (encode_iowr_toNat port v), fun hw => exec_of_holds hw rfl,
    fun hw hv => ?_, fun hw hv => ?_⟩
  · rw [exec_iowr_next hw, consolePut_of_control hv]
    rfl
  · rw [exec_iowr_next hw, consolePut_of_printable hv]
    rfl

/-- Settles O33: `DISP` has no operand and no check. -/
theorem dispRespondsWithTheWindow : Obligations.DispRespondsWithTheWindow :=
  ⟨spelledBy_of_wellFormed (i := .disp) rfl rfl, fun _ => rfl⟩

/-- Codes below 256 are the values of the bytes they make (R174). -/
theorem map_toNat_map_ofNat {codes : List Nat} (h : ∀ c ∈ codes, c < 256) :
    (codes.map (BitVec.ofNat 8)).map BitVec.toNat = codes := by
  rw [List.map_map]
  exact (List.map_congr_left fun c hc => Nat.mod_eq_of_lt (h c hc)).trans (List.map_id codes)

/-- Settles O51: the boundary looks at the codes first, then at the length (R174). -/
theorem wideCharactersAreRefused : Obligations.WideCharactersAreRefused := by
  intro s codes
  constructor
  · rintro ⟨c, hc, hwide⟩
    have hbad : ¬ codes.all (fun c => decide (c < 256)) := fun hall =>
      hwide.not_gt (of_decide_eq_true (List.all_eq_true.mp hall c hc))
    exact if_pos hbad
  · intro hcodes hlen
    have hall : codes.all (fun c => decide (c < 256)) := List.all_eq_true.mpr fun c hc => decide_eq_true (hcodes c hc)
    refine ⟨codes.map (BitVec.ofNat 8), map_toNat_map_ofNat hcodes, ?_⟩
    rw [typeLine, if_neg (not_not_intro hall), if_neg (not_not_intro hlen)]
    rfl

end Sys2Proof.Proofs
end

section
/-! PROOF. What the block does in place of exceptions: every transaction in range completes (R200, R205), the others
hold (R204) or are refused by their first failing check (R203, R207); and the Execution Loop beside the block (R208 to
R211). -/

namespace Sys2Proof.Proofs
open Sys2Proof.Machine Sys2Proof.Claims

variable {s : State} {t : Transaction} {i : Instr} {held : List Transaction}

/-! Holding transactions. -/

/-- Settles O7: what holds is put back as it was spelled, and nothing else happens. -/
theorem heldOperationStaysPending : Obligations.HeldOperationStaysPending := fun _ _ hw hi =>
  exec_of_holds hw hi

/-- The operator port is the one that carries what goes on during a wait (R98, R204). -/
theorem port_eq_operator_iff (hd : decode t = .op i) : t.port = .operator ↔ holdsInWait i = false := by
  obtain ⟨-, rfl⟩ := decode_eq_op_iff_encode.mp hd
  cases i <;> simp [encode, holdsInWait]

/-- Holding transactions in front are passed over, their ports busy from then on (R90, R204). -/
theorem takeUp_append_of_holding {wait : Bool} (hheld : ∀ u ∈ held, holding wait u = true) (busy : List Port)
    (ts : List Transaction) :
    takeUp wait busy (held ++ ts) =
      (takeUp wait ((held.map Transaction.port).reverse ++ busy) ts).map fun p => (p.1, held ++ p.2) := by
  induction held generalizing busy with
  | nil => simp
  | cons u us ih =>
    obtain ⟨hu, hus⟩ := List.forall_mem_cons.mp hheld
    rw [List.cons_append, takeUp_cons_of_holding _ hu, ih hus]
    simp [Function.comp_def]

/-- With nothing to take up the block stays as it is: it is passive (R19, R204). -/
theorem step_of_takeUp_none (hc : s.cfg.wellFormed = true) (hu : takeUp s.wait [] s.arrivals = none) :
    step s = .next s := by
  simp [step, fetch, hc, hu]

/-- Settles O6: what holds is on another port than the operator's, so it is passed over and leaves that port free. -/
theorem waitPassesOverHoldingTransactions : Obligations.WaitPassesOverHoldingTransactions := by
  intro s held rest t i hc hheld
  have hholding : ∀ u ∈ held, holding true u = true := fun u hu => by
    obtain ⟨j, hd, hj⟩ := hheld u hu
    simp [holding, hd, hj]
  refine ⟨fun hw harr hd hi => step_of_takeUp hc ?_ hd, fun hw harr => step_of_takeUp_none hc ?_,
    fun harr => step_of_takeUp_none hc ?_⟩
  · have hfree : t.port ∉ (held.map Transaction.port).reverse ++ [] := by
      rw [(port_eq_operator_iff hd).mpr hi, List.append_nil, List.mem_reverse, List.mem_map]
      rintro ⟨u, hu, hport⟩
      obtain ⟨j, hdj, hj⟩ := hheld u hu
      rw [(port_eq_operator_iff hdj).mp hport] at hj
      cases hj
    rw [hw, harr, takeUp_append_of_holding hholding,
      takeUp_cons_of_not_holding rest hfree (holding_eq_false hd (.inr hi))]
    rfl
  · rw [hw, harr, ← List.append_nil held, takeUp_append_of_holding hholding]
    rfl
  · rw [harr]
    rfl

/-! Operations in range. -/

/-- An operation in range completes, and puts nothing back among the pending transactions (R200). -/
theorem exec_of_inRange (h : InRange s i) : ∃ t, exec i s = .next t ∧ t.arrivals = s.arrivals := by
  cases i with
  | mrd addr => exact ⟨_, exec_mrd_next h addr, rfl⟩
  | mwr addr value =>
    obtain ⟨m, hm⟩ := memWrite_eq_setBuf s addr.toNat value
    exact ⟨_, exec_mwr_next h addr value, by rw [hm, setBuf_arrivals]⟩
  | iord port =>
    cases hq : s.inq with
    | nil => exact ⟨_, exec_iord_suspends h hq port, rfl⟩
    | cons c rest => exact ⟨_, exec_iord_front h hq port, rfl⟩
  | iowr port value =>
    exact ⟨_, exec_iowr_next h port value, by rw [consolePut_eq_setOutw, setOutw_arrivals]⟩
  | install w d =>
    obtain ⟨hw, hp, hd⟩ := h
    exact ⟨_, exec_install_next hw hp hd, rfl⟩
  | load d origin bytes =>
    obtain ⟨hw, hp, hd, hfits⟩ := h
    obtain ⟨m, hm⟩ := devLoad_eq_setBuf s d.toNat origin.toNat bytes
    exact ⟨_, exec_load_next hw hp hd hfits, by rw [hm, setBuf_arrivals]⟩
  | start =>
    obtain ⟨hw, hp⟩ := h
    exact ⟨_, exec_start_next hw hp, rfl⟩
  | line bytes =>
    obtain ⟨hw, hbound⟩ := h
    exact ⟨_, exec_line_fused hw ((lineFits_iff _ _).mpr hbound), by rw [fusedIord_eq]; rfl⟩
  | disp => exact ⟨_, rfl, rfl⟩

/-- An operation in range does not hold (R204). -/
theorem not_holds_of_inRange (h : InRange s i) : s.wait = false ∨ holdsInWait i = false := by
  cases i with
  | line bytes => exact .inr rfl
  | disp => exact .inr rfl
  | mrd addr => exact .inl h
  | mwr addr value => exact .inl h
  | iord port => exact .inl h
  | iowr port value => exact .inl h
  | install w d => exact .inl h.1
  | load d origin bytes => exact .inl h.1
  | start => exact .inl h.1

/-- Settles O41: the transaction in range does not hold, so it is taken out and executed; no reason to fault exists. -/
theorem transactionsInRangeComplete : Obligations.TransactionsInRangeComplete := by
  refine ⟨fun s x rest i hc harr hd hin => ?_, fun _ _ f => nomatch f⟩
  rw [stepRunsTheOldestTransaction s x rest i hc harr hd (not_holds_of_inRange hin)]
  exact exec_of_inRange (s := s.setArrivals rest) hin

/-! The first failing check. -/

theorem wait_eq_false_of_not_held (hnot : ¬(s.wait = true ∧ holdsInWait i = true)) (hi : holdsInWait i = true) :
    s.wait = false :=
  Bool.eq_false_iff.mpr fun hw => hnot ⟨hw, hi⟩

theorem phase_ne_run_iff (p : Phase) : p ≠ .run ↔ p = .setup := by
  cases p <;> simp

/-- The second check of `LINE`, an unbounded `LINE_MAX` included (R9, R173). -/
theorem verdict_line_of_wait (hw : s.wait = true) (bytes : List Byte) :
    verdict s (.line bytes) = if lineFits s.cfg bytes.length then none else some .lineTooLong := by
  cases hmax : s.cfg.lineMax with
  | none => simp [verdict, lineFits, hw, hmax]
  | some m =>
    rcases Nat.lt_or_ge m bytes.length with hlong | hfits
    · simp [verdict, lineFits, hw, hmax, hlong]
    · simp [verdict, lineFits, hw, hmax, hfits, hfits.not_gt]

/-- The refusal of an operation that does not hold is the reason of its first failing check (R203, R207). -/
theorem exec_of_verdict_eq_some {r : Refusal} (hnot : ¬(s.wait = true ∧ holdsInWait i = true))
    (hv : verdict s i = some r) : exec i s = .refused r := by
  have hwait := wait_eq_false_of_not_held hnot
  cases i with
  | mrd addr => cases hv
  | mwr addr value => cases hv
  | iord port => cases hv
  | iowr port value => cases hv
  | disp => cases hv
  | start =>
    simp only [verdict] at hv
    split_ifs at hv with hrun
    cases hv
    exact exec_setup_of_phase_ne rfl (hwait rfl) (by simp [hrun])
  | install w d =>
    simp only [verdict] at hv
    split_ifs at hv with hrun hdev <;> cases hv
    · exact exec_setup_of_phase_ne rfl (hwait rfl) (by simp [hrun])
    · exact exec_install_badDevice (hwait rfl) ((phase_ne_run_iff _).mp hrun) hdev w
  | load d origin bytes =>
    simp only [verdict] at hv
    split_ifs at hv with hrun hdev hlong <;> cases hv
    · exact exec_setup_of_phase_ne rfl (hwait rfl) (by simp [hrun])
    · exact exec_load_badDevice (hwait rfl) ((phase_ne_run_iff _).mp hrun) hdev origin bytes
    · exact exec_load_loadRange (hwait rfl) ((phase_ne_run_iff _).mp hrun) (not_le.mp hdev) hlong
  | line bytes =>
    cases hw : s.wait with
    | false =>
      simp only [verdict, hw, if_true] at hv
      cases hv
      exact exec_line_lineNotRequested hw bytes
    | true =>
      rw [verdict_line_of_wait hw] at hv
      split_ifs at hv with hfits
      cases hv
      exact exec_line_lineTooLong hw (Bool.eq_false_iff.mpr hfits)

/-- An operation that does not hold and fails no check is in range (R207). -/
theorem inRange_of_verdict_eq_none (hnot : ¬(s.wait = true ∧ holdsInWait i = true)) (hv : verdict s i = none) :
    InRange s i := by
  have hwait := wait_eq_false_of_not_held hnot
  cases i with
  | mrd addr => exact hwait rfl
  | mwr addr value => exact hwait rfl
  | iord port => exact hwait rfl
  | iowr port value => exact hwait rfl
  | disp => trivial
  | start =>
    simp only [verdict] at hv
    split_ifs at hv with hrun
    exact ⟨hwait rfl, (phase_ne_run_iff _).mp hrun⟩
  | install w d =>
    simp only [verdict] at hv
    split_ifs at hv with hrun hdev
    exact ⟨hwait rfl, (phase_ne_run_iff _).mp hrun, not_le.mp hdev⟩
  | load d origin bytes =>
    simp only [verdict] at hv
    split_ifs at hv with hrun hdev hlong
    exact ⟨hwait rfl, (phase_ne_run_iff _).mp hrun, not_le.mp hdev, not_lt.mp hlong⟩
  | line bytes =>
    cases hw : s.wait with
    | false => simp [verdict, hw] at hv
    | true =>
      rw [verdict_line_of_wait hw] at hv
      split_ifs at hv with hfits
      exact ⟨hw, (lineFits_iff _ _).mp hfits⟩

/-- Settles O8: an operation that does not hold is refused by its first failing check, or is in range. -/
theorem firstFailingCheckDecides : Obligations.FirstFailingCheckDecides := by
  refine fun s i hnot => ⟨fun r hv => exec_of_verdict_eq_some hnot hv, fun hv => ?_⟩
  obtain ⟨t, hnext, -⟩ := exec_of_inRange (inRange_of_verdict_eq_none hnot hv)
  exact ⟨t, hnext⟩

/-! The Execution Loop. -/

variable {l : Loop}

theorem loopCycle_done (h : l.status = .running) (pc : Addr) (halted : Bool) :
    loopCycle l (.done pc halted) = ⟨false, l.pc, pc, if halted then .halted else .running⟩ := by
  simp only [loopCycle, h]

theorem loopCycle_executionFault (h : l.status = .running) :
    loopCycle l .executionFault = ⟨false, l.pc, l.pc, .fatal l.pc⟩ := by
  simp only [loopCycle, h]

/-- A run that has ended as fatal has no further cycle (R210). -/
theorem loopCycle_of_fatal {reported : Addr} (h : l.status = .fatal reported) (answer : CpuAnswer) :
    loopCycle l answer = l := by
  simp only [loopCycle, h]

/-- However the CPU answers, the cycle captures the rollback point and clears the flag (R208, R209). -/
theorem loopCycle_rollback_pendingInt (h : l.status = .running) (answer : CpuAnswer) :
    (loopCycle l answer).rollback = l.pc ∧ (loopCycle l answer).pendingInt = false := by
  cases answer with
  | done pc halted =>
    rw [loopCycle_done h]
    exact ⟨rfl, rfl⟩
  | executionFault =>
    rw [loopCycle_executionFault h]
    exact ⟨rfl, rfl⟩

/-- Settles O54: both answers capture the rollback point and clear the flag, and the fault ends the run there. -/
theorem executionFaultEndsTheRunAtItsAddress : Obligations.ExecutionFaultEndsTheRunAtItsAddress := by
  intro l answer hrun
  obtain ⟨hrollback, hflag⟩ := loopCycle_rollback_pendingInt hrun answer
  refine ⟨fun h => if_pos h, fun h => if_neg (Bool.eq_false_iff.mp h), hrollback, hflag, ?_⟩
  rw [loopCycle_executionFault hrun]
  exact ⟨rfl, rfl, loopCycle_of_fatal rfl answer⟩

end Sys2Proof.Proofs
end

section
/-! PROOF. The reset (R230 to R232), the boot sequence that may follow it (R233, R235 to R237), and how many
transactions of the CPU are pending along a run (R244). -/

namespace Sys2Proof.Proofs
open Sys2Proof.Machine Sys2Proof.Claims

variable {s t : State} {i : Instr}

/-! Just after a reset. -/

/-- Every address of a fresh block selects device 0 (R46). -/
@[simp] theorem deviceAt_resetWith (c : Config) (boot : Nat) (a : Addr) : deviceAt (State.resetWith c boot) a = 0 := by
  rw [deviceAt, resetWith_wmapAt]
  rfl

/-- Device 0 is the unmapped one in every configuration (R33). -/
theorem tagOf_zero (c : Config) : tagOf c 0 = .unmapped := rfl

/-- A fresh block answers the sentinel at every address (R232). -/
theorem memRead_resetWith (c : Config) (boot : Nat) (a : Addr) :
    memRead (State.resetWith c boot) a.toNat = c.sentinel := by
  rw [memRead_toNat, deviceAt_resetWith, devRead_eq_ite_unmapped, if_pos (tagOf_zero _)]
  rfl

/-- A fresh block discards every write (R232). -/
theorem memWrite_resetWith (c : Config) (boot : Nat) (a : Addr) (v : Byte) :
    memWrite (State.resetWith c boot) a.toNat v = State.resetWith c boot := by
  rw [memWrite_toNat, deviceAt_resetWith]
  exact devWrite_of_ne_rw (by rw [tagOf_zero]; nofun) _ v

/-- Settles O46: no read is suspended, every address selects the unmapped device, and queue and window are empty. -/
theorem blockJustAfterReset : Obligations.BlockJustAfterReset := by
  intro c boot addr v port s
  refine ⟨?_, ?_, rfl, exec_iord_suspends rfl rfl port⟩
  · rw [asmMrd, exec_mrd_next rfl, memRead_resetWith]
    rfl
  · rw [asmMwr, exec_mwr_next rfl, memWrite_resetWith]

/-- A start that is not refused sampled a configuration and leaves the reset state with it (R104). -/
theorem powerOn_eq_next {p : Straps} {boot : Nat} (h : powerOn p boot = .next t) :
    ∃ c, sampleStraps p = some c ∧ t = State.resetWith c boot := by
  unfold powerOn at h
  split at h
  · next c hc => exact ⟨c, hc, (Host.Outcome.next.inj h).symm⟩
  · cases h

/-- Settles O50: what starts is the reset state of the next number, in which no old state takes part. -/
theorem resetAgainForgetsEverything : Obligations.ResetAgainForgetsEverything := by
  intro p s t h
  obtain ⟨c, hc, rfl⟩ := powerOn_eq_next h
  obtain ⟨hphase, -, hwait, hmap, hbuf, hinq, houtw⟩ := resetValuesOfTheBlock c (s.boot + 1)
  exact ⟨rfl, hphase, hwait, hinq, houtw, rfl, rfl, rfl, hmap, hbuf, hc⟩

/-! The bootstrap fill. -/

@[simp] theorem devLoad_cfg (s : State) (d origin : Nat) (bs : List Byte) : (devLoad s d origin bs).cfg = s.cfg := by
  rw [devLoad_eq_withBuf]

@[simp] theorem devLoad_wait (s : State) (d origin : Nat) (bs : List Byte) : (devLoad s d origin bs).wait = s.wait := by
  rw [devLoad_eq_withBuf]

/-- A device that is not unmapped is one of the table (R38). -/
theorem lt_ndev_of_ne_unmapped {c : Config} {d : Nat} (h : tagOf c d ≠ .unmapped) : d < ndev c := by
  by_contra hge
  exact h (List.getD_eq_default _ _ (not_lt.mp hge))

/-- The device field holds every device number of a well-formed configuration (R31, R104). -/
theorem toNat_ofNat_of_lt_ndev {c : Config} (hc : c.wellFormed = true) {d : Nat} (hd : d < ndev c) :
    (BitVec.ofNat 5 d).toNat = d := by
  obtain ⟨hndev, -, -⟩ := (config_wellFormed_iff c).mp hc
  exact Nat.mod_eq_of_lt (hd.trans_le hndev)

/-- `FILL` completes where `LOAD` does: its 2048 bytes at offset 0 fit every buffer (R106, R145). -/
theorem exec_pseudoFill_next {d : DevIx} (hw : s.wait = false) (hp : s.phase = .setup) (hd : d.toNat < ndev s.cfg)
    (b : Byte) : exec (pseudoFill d b) s = .next (devLoad s d.toNat 0 (List.replicate 2048 b)) :=
  exec_load_next hw hp hd (by rw [List.length_replicate]; decide)

/-- A whole buffer's worth of one byte leaves a buffered device full of it, and every other device alone (R142). -/
theorem bufByte_devLoad_replicate {d : Nat} (htag : tagOf s.cfg d ≠ .unmapped) (b : Byte) (e : Nat) {p : Nat}
    (hp : p < 2048) :
    bufByte (devLoad s d 0 (List.replicate 2048 b)) e p = if e = d then b else bufByte s e p := by
  split_ifs with he
  · subst he
    have hbyte := bufByte_devLoad_inside htag 0 (List.replicate 2048 b) (i := p) (by rwa [List.length_replicate])
    rwa [Nat.zero_add, List.getElem_replicate] at hbyte
  · exact bufByte_devLoad_outside s (by rw [List.length_replicate]) hp fun h => he h.1

/-- Fills of buffered devices complete in turn, change nothing but buffers, and leave each of those devices full of the
byte (R237). -/
theorem execAll_fills {ds : List Nat} (b : Byte) (hc : s.cfg.wellFormed = true) (hw : s.wait = false)
    (hp : s.phase = .setup) (hds : ∀ d ∈ ds, tagOf s.cfg d ≠ .unmapped) :
    ∃ t, execAll (ds.map fun d => pseudoFill (BitVec.ofNat 5 d) b) s = .next t ∧ t = { s with buf := t.buf } ∧
      ∀ d o : Nat, o < 2048 → bufByte t d o = if d ∈ ds then b else bufByte s d o := by
  induction ds generalizing s with
  | nil => exact ⟨s, rfl, rfl, fun _ _ _ => rfl⟩
  | cons e ds ih =>
    obtain ⟨he, hrest⟩ := List.forall_mem_cons.mp hds
    have hlt := lt_ndev_of_ne_unmapped he
    have hnum := toNat_ofNat_of_lt_ndev hc hlt
    have hfirst := exec_pseudoFill_next hw hp (hnum.trans_lt hlt) b
    rw [hnum] at hfirst
    obtain ⟨t, ht, hframe, hbyte⟩ := ih (s := devLoad s e 0 (List.replicate 2048 b)) (by rwa [devLoad_cfg])
      (by rwa [devLoad_wait]) (by rwa [devLoad_phase]) (by rwa [devLoad_cfg])
    refine ⟨t, (execAll_cons_of_next _ hfirst).trans ht, ?_, fun d o ho => ?_⟩
    · rw [devLoad_eq_withBuf] at hframe
      exact hframe
    · rw [hbyte d o ho, bufByte_devLoad_replicate he b d ho]
      by_cases hd : d = e <;> simp [hd]

/-- The devices that the bootstrap fills are the `RW` ones (R237). -/
theorem mem_filled_iff (c : Config) (d : Nat) :
    d ∈ (List.range (ndev c)).filter (fun d => decide (tagOf c d = .rw)) ↔ tagOf c d = .rw := by
  rw [List.mem_filter, List.mem_range, decide_eq_true_eq]
  exact and_iff_right_of_imp fun h => lt_ndev_of_ne_unmapped (by rw [h]; nofun)

/-- Settles O52: the devices filled are exactly the `RW` ones. -/
theorem bootFillCoversWritableMemory : Obligations.BootFillCoversWritableMemory := by
  intro s b hc hw hp
  obtain ⟨t, ht, hframe, hbyte⟩ := execAll_fills b hc hw hp fun d hd => by
    rw [(mem_filled_iff s.cfg d).mp hd]
    nofun
  exact ⟨t, ht, hframe, fun d o ho => by simp only [hbyte d o ho, mem_filled_iff]⟩

/-! The boot sequence. -/

/-- Installs of devices of the table complete in turn, change nothing but the map, and the last one of a window decides
its entry (R144). -/
theorem execAll_installs {installs : List (WinIx × DevIx)} (hw : s.wait = false) (hp : s.phase = .setup)
    (hdev : ∀ x ∈ installs, x.2.toNat < ndev s.cfg) :
    ∃ t, execAll (installs.map fun x => .install x.1 x.2) s = .next t ∧ t = { s with wmap := t.wmap } ∧
      ∀ w : WinIx, t.wmapAt w = installs.foldl (fun d x => if x.1 = w then x.2 else d) (s.wmapAt w) := by
  induction installs generalizing s with
  | nil => exact ⟨s, rfl, rfl, fun _ => rfl⟩
  | cons x installs ih =>
    obtain ⟨hx, hrest⟩ := List.forall_mem_cons.mp hdev
    obtain ⟨t, ht, hframe, hmap⟩ := ih (s := s.setWmap x.1 x.2) hw hp hrest
    refine ⟨t, (execAll_cons_of_next _ (exec_install_next hw hp hx)).trans ht, hframe, fun w => ?_⟩
    rw [hmap, setWmap_wmapAt, List.foldl_cons]
    simp only [eq_comm (a := w)]

/-- The second state is the first with its buffers replaced. -/
def BuffersOnly (s t : State) : Prop := ∃ m, t = s.setBuf m

/-- What boot does between the installs and `START` (R235): a `LOAD` with its operands in range, or an `MWR`. -/
inductive FillsMemory (c : Config) : Instr → Prop where
  | load (d : DevIx) (origin : Offset) (bs : List Byte) (hdev : d.toNat < ndev c)
    (hfits : origin.toNat + bs.length ≤ 2048) : FillsMemory c (.load d origin bs)
  | mwr (a : Addr) (v : Byte) : FillsMemory c (.mwr a v)

/-- In `SETUP` with no read suspended a `LOAD` in range and an `MWR` complete and change buffers at most. -/
theorem exec_of_fillsMemory (hi : FillsMemory s.cfg i) (hw : s.wait = false) (hp : s.phase = .setup)
    (ht : BuffersOnly s t) : ∃ u, exec i t = .next u ∧ BuffersOnly s u := by
  obtain ⟨m, rfl⟩ := ht
  cases hi with
  | load d origin bs hdev hfits =>
    exact ⟨_, exec_load_next (s := s.setBuf m) hw hp hdev hfits, devLoad_eq_setBuf (s.setBuf m) d.toNat origin.toNat bs⟩
  | mwr a v => exact ⟨_, exec_mwr_next (s := s.setBuf m) hw a v, memWrite_eq_setBuf (s.setBuf m) a.toNat v⟩

/-- Such operations complete in turn. -/
theorem execAll_of_fillsMemory {is : List Instr} (his : ∀ i ∈ is, FillsMemory s.cfg i) (hw : s.wait = false)
    (hp : s.phase = .setup) : ∃ t, execAll is s = .next t ∧ BuffersOnly s t :=
  execAll_next_of_each (P := BuffersOnly s) (fun i hi _ ht => exec_of_fillsMemory (his i hi) hw hp ht) ⟨s.buf, rfl⟩

/-- Every operation of the bootstrap fill is a `LOAD` in range (R237). -/
theorem fillsMemory_bootFill {c : Config} {b : Byte} (hi : i ∈ bootFill c b) : FillsMemory c i := by
  obtain ⟨d, hd, rfl⟩ := List.mem_map.mp hi
  have hlt : d < ndev c := List.mem_range.mp (List.mem_of_mem_filter hd)
  exact .load _ _ _ ((Nat.mod_le d 32).trans_lt hlt) (by rw [List.length_replicate]; decide)

/-- The boot sequence in three parts: the map, the memory, `START` (R235). -/
theorem bootSequence_eq (c : Config) (installs : List (WinIx × DevIx)) (b : Byte)
    (loads : List (DevIx × Offset × List Byte)) (push : List (Addr × Byte)) :
    bootSequence c installs b loads push = installs.map (fun x => .install x.1 x.2) ++
      ((bootFill c b ++ (loads.map (fun x => .load x.1 x.2.1 x.2.2) ++ writes push)) ++ [.start]) := by
  simp only [bootSequence, writes, List.append_assoc]

/-- Fill, loads and push are `LOAD`s in range and `MWR`s (R235). -/
theorem fillsMemory_boot {c : Config} {b : Byte} {loads : List (DevIx × Offset × List Byte)} {push : List (Addr × Byte)}
    (hloads : ∀ x ∈ loads, x.1.toNat < ndev c ∧ x.2.1.toNat + x.2.2.length ≤ 2048) :
    ∀ i ∈ bootFill c b ++ (loads.map (fun x => .load x.1 x.2.1 x.2.2) ++ writes push), FillsMemory c i := by
  intro i hi
  rcases List.mem_append.mp hi with hfill | hi
  · exact fillsMemory_bootFill hfill
  · rcases List.mem_append.mp hi with hload | hpush
    · obtain ⟨x, hx, rfl⟩ := List.mem_map.mp hload
      obtain ⟨hdev, hfits⟩ := hloads x hx
      exact .load _ _ _ hdev hfits
    · obtain ⟨x, -, rfl⟩ := List.mem_map.mp hpush
      exact .mwr _ _

/-- Settles O53: the installs write the map, fill, loads and push write buffers, and `START` finds the phase `SETUP`. -/
theorem bootSequenceEndsInRun : Obligations.BootSequenceEndsInRun := by
  intro s installs b loads push _ hw hp hinstalls hloads
  obtain ⟨u, hu, hframe, hmap⟩ := execAll_installs hw hp hinstalls
  have hcfg : u.cfg = s.cfg := by rw [hframe]
  have hwait : u.wait = false := by rw [hframe]; exact hw
  have hphase : u.phase = .setup := by rw [hframe]; exact hp
  obtain ⟨v, hv, m, rfl⟩ := execAll_of_fillsMemory (s := u) (hcfg ▸ fillsMemory_boot (b := b) (push := push) hloads)
    hwait hphase
  refine ⟨(u.setBuf m).setPhase .run, ?_, ?_, hmap⟩
  · rw [bootSequence_eq, execAll_append_of_next _ hu, execAll_append_of_next _ (hcfg ▸ hv),
      execAll_cons_of_next _ (exec_start_next (s := u.setBuf m) hwait hphase), execAll_nil]
  · rw [hframe]
    rfl

/-! Transactions of the CPU. -/

theorem mayPresent_iff (s : State) (x : Transaction) : mayPresent s x = true ↔ x.port ≠ .cpu ∨ cpuPending s = 0 := by
  simp [mayPresent]

/-- The agent that lacks a move is the CPU while one of its own transactions is pending (R244). -/
theorem present_eq_none_iff (s : State) (x : Transaction) : s.present x = none ↔ x.port = .cpu ∧ 1 ≤ cpuPending s := by
  simp [State.present, mayPresent_iff, Nat.one_le_iff_ne_zero]

/-- How many transactions of the CPU are pending once one more has arrived. -/
theorem cpuPending_arrive (s : State) (x : Transaction) :
    cpuPending (s.arrive x) = cpuPending s + if x.port = .cpu then 1 else 0 := by
  simp [cpuPending, State.arrive, List.countP_singleton, Nat.add_assoc]

/-- A transaction that its agent may present leaves the CPU with at most one pending (R244). -/
theorem cpuPending_arrive_le {x : Transaction} (hmay : mayPresent s x = true) (h : cpuPending s ≤ 1) :
    cpuPending (s.arrive x) ≤ 1 := by
  rw [cpuPending_arrive]
  rcases (mayPresent_iff s x).mp hmay with hport | hnone
  · rwa [if_neg hport]
  · rw [hnone]
    split_ifs <;> decide

/-- An operation that does not hold and completes puts nothing back among the pending transactions. -/
theorem exec_arrivals_of_not_held (hnot : ¬(s.wait = true ∧ holdsInWait i = true)) (h : exec i s = .next t) :
    t.arrivals = s.arrivals := by
  cases hv : verdict s i with
  | some r => cases (exec_of_verdict_eq_some hnot hv).symm.trans h
  | none =>
    obtain ⟨u, hu, harr⟩ := exec_of_inRange (inRange_of_verdict_eq_none hnot hv)
    obtain rfl : u = t := Host.Outcome.next.inj (hu.symm.trans h)
    exact harr

/-- Only an operation of the CPU port can suspend a read (R98, R170). -/
theorem exec_wait_le (h : exec i s = .next t) :
    t.wait.toNat ≤ s.wait.toNat + if (encode i).port = .cpu then 1 else 0 := by
  rcases exec_console h with ⟨-, -, hwait⟩ | hchange
  · rw [hwait]
    exact Nat.le_add_right _ _
  · cases hchange with
    | suspend port hw hq => exact Nat.le_add_left 1 _
    | pop port b q hw hq => exact Nat.le_add_right _ _
    | put port v hw =>
      rw [consolePut_eq_setOutw]
      exact Nat.le_add_right _ _
    | line bs hw hfits => exact Nat.zero_le _

/-- A step puts a suspended read in place of the transaction that asked for it, and adds nothing else to what the CPU
has pending. -/
theorem cpuPending_step_le (h : step s = .next t) : cpuPending t ≤ cpuPending s := by
  rcases (step_cases h).2 with rfl | ⟨x, rest, i, hx, hd, he⟩
  · exact le_rfl
  · obtain ⟨-, hheld, -, hperm⟩ := takeUp_some hx
    have hnot : ¬(s.wait = true ∧ holdsInWait i = true) := fun ⟨hw, hi⟩ => by simp [holding, hd, hw, hi] at hheld
    obtain ⟨-, rfl⟩ := decode_eq_op_iff_encode.mp hd
    have harr : t.arrivals = rest := exec_arrivals_of_not_held (s := s.setArrivals rest) hnot he
    have hwait := exec_wait_le he
    rw [setArrivals_wait] at hwait
    rw [cpuPending, cpuPending, harr, hperm.countP_eq, List.countP_cons]
    simp only [decide_eq_true_eq]
    omega

/-- While a read is suspended and the CPU has at most one transaction pending, none waits on its port. -/
theorem port_ne_cpu_of_wait (h : cpuPending s ≤ 1) (hw : s.wait = true) : ∀ x ∈ s.arrivals, x.port ≠ .cpu := by
  have hzero : s.arrivals.countP (fun u => decide (u.port = .cpu)) = 0 := by
    rw [cpuPending, hw, Bool.toNat_true] at h
    omega
  simpa [List.countP_eq_zero] using hzero

/-- At most one transaction of the CPU stays pending along a run: no step adds one, and the CPU presents one only when
it has none (R244). -/
theorem cpuPending_run_le (h : Run s t) : cpuPending s ≤ 1 → cpuPending t ≤ 1 :=
  run_induction (P := fun s t => cpuPending s ≤ 1 → cpuPending t ≤ 1) (fun _ => id)
    (fun _ _ _ ih hstep hs => (cpuPending_step_le hstep).trans (ih hs))
    (fun _ _ _ ih hmay hs => cpuPending_arrive_le hmay (ih hs))
    (fun _ _ _ _ ih => ih) h

/-- Settles O55: the move the CPU lacks is what keeps its pending transactions at one along a run. -/
theorem cpuHasAtMostOneTransactionPending : Obligations.CpuHasAtMostOneTransactionPending := by
  refine ⟨present_eq_none_iff, fun s t hrun hs => ?_⟩
  have ht := cpuPending_run_le hrun hs
  exact ⟨ht, port_ne_cpu_of_wait ht⟩

end Sys2Proof.Proofs
end
